-- ==== Sys2Proof/Word.lean ====
section
/-! DEFINITION. The word types of the CRC core (spec/00_scope.md R5, R7): all values are unsigned bit
vectors of a stated width. -/

namespace Sys2Proof

/-- A 32-bit value: the accumulator, a table entry, `cmd_arg`, `rsp_data` (R5 `W_CRC`, `W_TBL`). -/
abbrev Word := BitVec 32

/-- An 8-bit value: one data byte of a message or one table index (R5 `W_BYTE`, R20). -/
abbrev Byte := BitVec 8

/-- A 36-bit command word, bits 35:32 = `op`, bits 31:0 = `arg` (R36). -/
abbrev CmdWord := BitVec 36

end Sys2Proof
end

