-- ==== Sys2Proof/Config.lean ====
section
/-! DEFINITION. What an implementation fixes and the spec leaves OPEN (spec/00_scope.md R5):
`TABLE_STORAGE` and the length of the table fill. `DATAPATH` needs no constant here: the model builds the
table form and states it equal to the feedback form (assumption log 5). `LAT` and the stalls are free bits
of each `Machine.Edge` (log 1). -/

namespace Sys2Proof

/-- The two values of `TABLE_STORAGE` (spec/10_state.md R14). -/
inductive TableStorage where
  | rom              -- the constants exist from power-up
  | ramBuiltInReset  -- a sequencer writes the 256 entries while `cmd_ready = 0`
  deriving DecidableEq, Repr, Inhabited

/-- `TABLE_STORAGE`, OPEN (R5, R14): no value is known to any proof (log 6). -/
opaque Config.tableStorage : TableStorage

/-- How many cycles the fill takes beyond the 256 writes it needs at least
(spec/70_reset_and_hazards.md R99): implementation-chosen, no value is known to any proof (log 6). -/
opaque Config.fillExtra : Nat

end Sys2Proof
end

