-- ==== Sys2Proof/Syntax.lean ====
section
/-! DEFINITION. The commands of the core: one constructor per row of spec/opcode_table.json, in the
table's order (spec/30_encoding.md R37). The operand types are the operand fields of R38 to R40: a byte of
format B is 8 bits wide and the word of format W is 32 bits wide, so no value of `Instr` is out of range. -/

namespace Sys2Proof

/-- The six commands (R37). -/
inductive Instr where
  /-- `INIT`, format N (R61). -/
  | init
  /-- `UPD b`, format B: one data byte (R63). -/
  | upd (b : Byte)
  /-- `FIN`, format N (R66). -/
  | fin
  /-- `GETST`, format N (R69). -/
  | getst
  /-- `SETST v`, format W: a 32-bit raw state (R70). -/
  | setst (v : Word)
  /-- `TBLRD i`, format B: a table index (R57). -/
  | tblrd (i : Byte)
  deriving DecidableEq, Repr

end Sys2Proof
end

