-- ==== Sys2Proof/WellFormed.lean ====
section
/-! DEFINITION. Well-formed command words, as the match and mask table of spec/30_encoding.md R41 gives
them: "a word `w` selects a command when `w & mask = match`". The spec's "well-formed" speaks of words
(spec/60_exceptions.md R81); an `Instr` carries its operand ranges in its types and is always well formed. -/

namespace Sys2Proof

/-- The operand formats (R38, R39, R40). -/
inductive Format where
  | n  -- no operand: `arg` is zero
  | b  -- byte operand in `arg[7:0]`, `arg[31:8]` is zero
  | w  -- word operand `arg[31:0]`
  deriving DecidableEq, Repr

/-- One row of the opcode table (R37, R41). -/
structure OpRow where
  mnemonic : String
  format : Format
  mtch : CmdWord
  mask : CmdWord
  deriving DecidableEq, Repr

/-- The opcode table: the six rows of R41, in order. -/
def opcodeTable : List OpRow :=
  [ ⟨"INIT", .n, 0x100000000#36, 0xFFFFFFFFF#36⟩,
    ⟨"UPD", .b, 0x200000000#36, 0xFFFFFFF00#36⟩,
    ⟨"FIN", .n, 0x300000000#36, 0xFFFFFFFFF#36⟩,
    ⟨"GETST", .n, 0x400000000#36, 0xFFFFFFFFF#36⟩,
    ⟨"SETST", .w, 0x500000000#36, 0xF00000000#36⟩,
    ⟨"TBLRD", .b, 0x600000000#36, 0xFFFFFFF00#36⟩ ]

/-- A word selects a row when `w & mask = match` (R41). -/
def OpRow.selects (r : OpRow) (w : CmdWord) : Bool := w &&& r.mask == r.mtch

/-- A word is well formed when some row of the table selects it (R41, R81). -/
def CmdWord.wellFormed (w : CmdWord) : Bool := opcodeTable.any fun r => r.selects w

/-- The row of the table an instruction belongs to (R37). -/
def Instr.row : Instr → OpRow
  | .init => ⟨"INIT", .n, 0x100000000#36, 0xFFFFFFFFF#36⟩
  | .upd _ => ⟨"UPD", .b, 0x200000000#36, 0xFFFFFFF00#36⟩
  | .fin => ⟨"FIN", .n, 0x300000000#36, 0xFFFFFFFFF#36⟩
  | .getst => ⟨"GETST", .n, 0x400000000#36, 0xFFFFFFFFF#36⟩
  | .setst _ => ⟨"SETST", .w, 0x500000000#36, 0xF00000000#36⟩
  | .tblrd _ => ⟨"TBLRD", .b, 0x600000000#36, 0xFFFFFFF00#36⟩

end Sys2Proof
end

