-- ==== Sys2Proof/Decode.lean ====
section
/-! DEFINITION. The decoder of spec/30_encoding.md R41, total on all 2^36 words, and the encoder written from
the formats of R36 to R40. A word that is no command is rejected with the cause of R42. -/

namespace Sys2Proof

/-- The causes of `IllegalCommand` (spec/60_exceptions.md R83). -/
inductive Cause where
  | reservedOpcode       -- cause 1: `op` is 0x0 or 0x7 to 0xF
  | reservedOperandBits  -- cause 2: reserved operand bits are not zero
  deriving DecidableEq, Repr

/-- The cause code that `rsp_data` carries (R82, R83). -/
def Cause.code : Cause → Word
  | .reservedOpcode => 0x00000001#32
  | .reservedOperandBits => 0x00000002#32

/-- The outcome of decoding: one of the six commands, or `IllegalCommand(cause)` (R41). -/
inductive Decoded where
  | legal (i : Instr)
  | illegal (c : Cause)
  deriving DecidableEq, Repr

/-- `cmd[35:32]` (R36). -/
def opField (w : CmdWord) : BitVec 4 := w.extractLsb' 32 4

/-- `cmd[31:0]` (R36). -/
def argField (w : CmdWord) : Word := w.extractLsb' 0 32

/-- `arg[31:8]`, reserved in format B (R39). -/
def argHigh (w : CmdWord) : BitVec 24 := (argField w).extractLsb' 8 24

/-- `arg[7:0]`, the operand of format B (R39). -/
def argByte (w : CmdWord) : Byte := (argField w).extractLsb' 0 8

/-- Format N: `arg` must be zero, else cause 2 (R38). -/
def decodeN (w : CmdWord) (i : Instr) : Decoded :=
  if argField w = 0#32 then .legal i else .illegal .reservedOperandBits

/-- Format B: `arg[31:8]` must be zero, else cause 2 (R39). -/
def decodeB (w : CmdWord) (f : Byte → Instr) : Decoded :=
  if argHigh w = 0#24 then .legal (f (argByte w)) else .illegal .reservedOperandBits

/-- The decoder, complete (R41): `op` is tested first (spec/60_exceptions.md R84). -/
def decode (w : CmdWord) : Decoded :=
  if opField w = 0x1#4 then decodeN w .init
  else if opField w = 0x2#4 then decodeB w .upd
  else if opField w = 0x3#4 then decodeN w .fin
  else if opField w = 0x4#4 then decodeN w .getst
  else if opField w = 0x5#4 then .legal (.setst (argField w))
  else if opField w = 0x6#4 then decodeB w .tblrd
  else .illegal .reservedOpcode

/-- A command word from its two fields, `{op, arg}` (R36). -/
def cmdWord (op : BitVec 4) (arg : Word) : CmdWord := op ++ arg

/-- The operand field of format B: `{0x000000, byte}` (R39). -/
def argOfByte (b : Byte) : Word := 0#24 ++ b

/-- The encoder: the word each command assembles to (R36 to R40, R45). -/
def encode : Instr → CmdWord
  | .init => cmdWord 0x1#4 0#32
  | .upd b => cmdWord 0x2#4 (argOfByte b)
  | .fin => cmdWord 0x3#4 0#32
  | .getst => cmdWord 0x4#4 0#32
  | .setst v => cmdWord 0x5#4 v
  | .tblrd i => cmdWord 0x6#4 (argOfByte i)

/-- The instruction of a decoded word, if it is legal. -/
def Decoded.instr? : Decoded → Option Instr
  | .legal i => some i
  | .illegal _ => none

/-- The instruction the decoder reads from a word numbered as spec/opcode_table.json numbers its bits. A
command is one 36-bit word and no bit outside it exists (R36), so a number of more than 36 bits is no
command, and `nbits` is not needed to read one (log 12). -/
def decodeTableWord (_nbits w : Nat) : Option Instr :=
  if w < 2 ^ 36 then (decode (BitVec.ofNat 36 w)).instr? else none

end Sys2Proof
end

