-- ==== Sys2Proof/Machine/State.lean ====
section
/-! DEFINITION. The state of the machine as plain data, and the state after reset. The core's only register is
`CRC` (spec/10_state.md R10); beside it stand the hidden queues and the fill counter that R19 names, what the
two handshakes carry from one edge to the next (spec/30_encoding.md R33, R34), and the host's part (R16, R104,
R106). The table `TBL` is a constant, not state (R12). -/

namespace Sys2Proof.Machine

/-- The response word `{rsp_err, rsp_data}`, 33 bits (spec/30_encoding.md R44). -/
structure Response where
  err : Bool
  data : Word
  deriving DecidableEq, Repr

/-- What the host drives on the input ports at one rising edge of `clk` (spec/30_encoding.md R32). -/
structure PortIn where
  rst : Bool
  cmdValid : Bool
  cmdOp : BitVec 4
  cmdArg : Word
  rspReady : Bool
  deriving DecidableEq, Repr

/-- One rising edge of `clk`: the host's wires, and the three choices of timing that the spec leaves to the
core at that edge (R33, R35, R101; log 1). -/
structure Edge where
  inp : PortIn
  /-- The core keeps `cmd_ready` low (R33: "for any reason of its implementation"). -/
  stall : Bool
  /-- The core executes no queued command at this edge (`LAT`, R35, R101). -/
  busy : Bool
  /-- The core does not yet raise `rsp_valid` for the next response (`LAT`, R35, R101). -/
  hold : Bool
  deriving DecidableEq, Repr

/-- What the core shows on its output ports at one rising edge (R32). `rsp = some r` is `rsp_valid = 1` with
`{rsp_err, rsp_data} = r`; `none` is `rsp_valid = 0`, for which the spec gives the data wires no value (log 10). -/
structure PortOut where
  cmdReady : Bool
  rsp : Option Response
  deriving DecidableEq, Repr

structure State where
  /-- `CRC`, the accumulator: the raw state, before the final complement (R10). -/
  crc : Word
  /-- Commands accepted and not yet executed, oldest first (R19). -/
  cmdQueue : List CmdWord
  /-- Responses computed and not yet delivered, oldest first (R19). -/
  rspQueue : List Response
  /-- `rsp_valid` was 1 at the last edge and the response was not taken, so it must stay (R34). -/
  rspShown : Bool
  /-- Edges for which the table sequencer still holds `cmd_ready` low; 0 when the table is complete
  (R19, R99; log 6). -/
  fill : Nat
  /-- The word presented and not accepted at the last edge, which the host must hold (R33; log 8). -/
  offered : Option CmdWord
  /-- The rising edges to come, next first (R32, R106; log 1). -/
  edges : List Edge
  /-- The words accepted since the last reset, in order (R16, R104; log 9). -/
  accepted : List CmdWord
  /-- The responses delivered since the last reset, in order: the result of the run (R104, R106; log 9). -/
  delivered : List Response
  deriving DecidableEq, Repr

/-- The reasons for which the machine stops with a fault: NONE. "A command word that the opcode table defines
never raises" (spec/60_exceptions.md R81), and `IllegalCommand`, the one exception (R82), is a next state
(`raiseIllegal`). The type is empty, which is safe (log 14). -/
inductive Fault where
  deriving DecidableEq, Repr

/-- The reasons for which a step has no meaning. -/
inductive Refusal where
  /-- Raised by an arm of `exec` for an instruction that has no meaning yet (no arm is left that does). Safe:
  the machine stops. -/
  | notModelled (mnemonic : String)
  /-- Raised by `onEdge` where the host has changed or withdrawn a word that it presented and the core has not
  accepted: "no move in the model; a run in which the host does this is outside the spec"
  (spec/93_implementation_defined.md U6, spec/30_encoding.md R33). Safe: the machine stops (log 8). -/
  | hostChangedOffer
  deriving DecidableEq, Repr

/-- The state after reset: `CRC = 0xFFFFFFFF` (R10, R95), both queues empty and no response shown (R94, R96), the
table complete (R99, R106), nothing accepted or delivered since (R104). No word is on offer and no edge is
listed: the host has done nothing yet (log 7). -/
def State.reset : State where
  crc := 0xFFFFFFFF#32
  cmdQueue := []
  rspQueue := []
  rspShown := false
  fill := 0
  offered := none
  edges := []
  accepted := []
  delivered := []

end Sys2Proof.Machine
end

