-- ==== Sys2Proof/Machine/Operands.lean ====
section
/-! DEFINITION. The operand forms and the effective addresses: operands are unsigned and taken from the word as they
stand (spec/30_encoding.md R41); the only address space is the table space, indexed by 8 bits
(spec/20_memory.md R20, R31). The core has no flags (spec/10_state.md R17), so there is no file of flag
computations. -/

namespace Sys2Proof.Machine

/-- `zext_32(b)`: a byte where it meets a 32-bit value (spec/00_scope.md R7, spec/40_datapath_and_table.md R48). -/
def zext32 (b : Byte) : Word := b.setWidth 32

/-- Bits 7 to 0 of a 32-bit value: the source's `& 0xFF` (R48). -/
def lowByte (s : Word) : Byte := s.extractLsb' 0 8

/-- The effective address of `UPD b`: `(CRC ^ zext_32(b))[7:0]` (R31, R53). -/
def updIndex (s : Word) (b : Byte) : Byte := lowByte (s ^^^ zext32 b)

/-- The effective address of `TBLRD i`: the operand itself (R31). -/
def tblrdIndex (i : Byte) : Byte := i

end Sys2Proof.Machine
end

