-- ==== Sys2Proof/Machine/Datapath.lean ====
section
/-! DEFINITION. The pure functions of the datapath (spec/40_datapath_and_table.md) and of whole byte sequences
(spec/43_composite.md). None of them reads or writes state (spec/00_scope.md R8). -/

namespace Sys2Proof.Machine

/-- `POLY`, the reflected polynomial (spec/00_scope.md R2). -/
def poly : Word := 0xEDB88320#32

/-- `SEED` (R2). -/
def seed : Word := 0xFFFFFFFF#32

/-- `XOROUT` (R2). -/
def xorout : Word := 0xFFFFFFFF#32

/-- The one-bit step `g` (R49). -/
def g (s : Word) : Word := if s.getLsbD 0 then (s >>> 1) ^^^ poly else s >>> 1

/-- `n` one-bit steps: "repeat n times: v = g(v)" (R50, R52). -/
def gIter : Nat → Word → Word
  | 0, v => v
  | n + 1, v => gIter n (g v)

/-- `tbl_entry(i)` (R50). -/
def tblEntry (i : Byte) : Word := gIter 8 (zext32 i)

/-- `build_table()`: the 256 entries, entry `i` at index `i` (R50). -/
def buildTable : List Word := (List.range 256).map fun i => tblEntry (BitVec.ofNat 8 i)

/-- `TblRead(i)`, the only memory read of the core: the constant `TBL[i] = tbl_entry(i)`
(spec/00_scope.md R8, spec/10_state.md R12, R13; log 4). -/
def tblRead (i : Byte) : Word := tblEntry i

/-- The one-byte step in the feedback form (R52). -/
def stepFb (s : Word) (b : Byte) : Word := gIter 8 (s ^^^ zext32 b)

/-- One data bit in the serial form: `v = g(v ^ zext_32(d))` (R52). -/
def serialBit (v : Word) (d : Bool) : Word := g (v ^^^ (BitVec.ofBool d).setWidth 32)

/-- The bits of a byte in the order in which they are divided, least significant first (R23, R52). -/
def byteBits (b : Byte) : List Bool := (List.range 8).map fun k => b.getLsbD k

/-- The one-byte step in the serial form: one bit a clock, `b[0]` first (R52). -/
def stepSerial (s : Word) (b : Byte) : Word := (byteBits b).foldl serialBit s

/-- The one-byte step in the table form (R53). -/
def stepTbl (s : Word) (b : Byte) : Word := (s >>> 8) ^^^ tblRead (updIndex s b)

/-- `step(s, b)`, the common value of the two forms (R54); the model builds the table form (log 5). -/
def crcStep (s : Word) (b : Byte) : Word := stepTbl s b

/-- The inverse of the one-bit step (R56). -/
def ginv (t : Word) : Word :=
  if t.getLsbD 31 then (t ^^^ poly).extractLsb' 0 31 ++ 1#1 else t.extractLsb' 0 31 ++ 0#1

/-- `n` inverse one-bit steps. -/
def ginvIter : Nat → Word → Word
  | 0, v => v
  | n + 1, v => ginvIter n (ginv v)

/-- The inverse of `step(·, b)` for a fixed byte (R56), in the feedback form. -/
def crcUnstep (t : Word) (b : Byte) : Word := ginvIter 8 t ^^^ zext32 b

/-- Bits 31 to 24 of a table entry (R51 (d), R56). -/
def topByte (t : Word) : Byte := t.extractLsb' 24 8

/-- The inverse of `step(·, b)` in the table form, `{(t ^ TBL[k])[23:0], k ^ b}`, given the index `k` (R56). -/
def tableUnstep (t : Word) (k b : Byte) : Word := (t ^^^ tblRead k).extractLsb' 0 24 ++ (k ^^^ b)

/-- `update(s, data)` (spec/43_composite.md R72). -/
def update (s : Word) : List Byte → Word
  | [] => s
  | b :: rest => update (crcStep s b) rest

/-- `finalize(s)` (R74). -/
def finalize (s : Word) : Word := s ^^^ xorout

/-- `checksum(data)` (R74). -/
def checksum (data : List Byte) : Word := finalize (update seed data)

/-- The four bytes of a 32-bit value, least significant byte first (R80). -/
def leBytes (c : Word) : List Byte :=
  [c.extractLsb' 0 8, c.extractLsb' 8 8, c.extractLsb' 16 8, c.extractLsb' 24 8]

end Sys2Proof.Machine
end

