-- ==== Sys2Proof/Machine/Ops.lean ====
section
/-! DEFINITION. The named operations over the state: writing `CRC`, responding, raising `IllegalCommand`
(spec/60_exceptions.md R82), and what a reset edge writes (spec/70_reset_and_hazards.md R95, R96). There is no
return from an exception: "There is no return command and nothing to restore" (R86). -/

namespace Sys2Proof.Machine

/-- `CRC <- v` (spec/00_scope.md R8). -/
def writeCrc (v : Word) (s : State) : State := { s with crc := v }

/-- `respond(e, d)`: the response of the current command, behind those still undelivered
(R8, spec/30_encoding.md R35). -/
def respond (e : Bool) (d : Word) (s : State) : State :=
  { s with rspQueue := s.rspQueue ++ [⟨e, d⟩] }

/-- `raise IllegalCommand(cause)`, effect complete (R82): no state is saved, `CRC` is neither read nor written,
the response is `rsp_err = 1` with the cause code, and the core is ready for the next command. -/
def raiseIllegal (c : Cause) (s : State) : State := respond true c.code s

/-- For how many edges after a reset the core keeps `cmd_ready` low for its table: none with a ROM, at least
the 256 writes of the sequencer with a RAM (R99; log 6). -/
def fillLength : Nat :=
  match Config.tableStorage with
  | .rom => 0
  | .ramBuiltInReset => 256 + Config.fillExtra

/-- What one rising edge with `rst = 1` writes (R95): the seed into `CRC`, both queues emptied (R96), the table fill
restarted, and the host's counts started again (R104). `offer` is the word the host presents at this edge; it is
not accepted (R94). -/
def applyReset (offer : Option CmdWord) (s : State) : State :=
  { s with
    crc := seed
    cmdQueue := []
    rspQueue := []
    rspShown := false
    fill := fillLength
    offered := offer
    accepted := []
    delivered := [] }

/-- Go on from a next state; keep a fault or a refusal as it is. -/
def andThen (o : Host.Outcome State Fault Refusal) (f : State → Host.Outcome State Fault Refusal) :
    Host.Outcome State Fault Refusal :=
  match o with
  | .next s => f s
  | .fault r => .fault r
  | .refused r => .refused r

end Sys2Proof.Machine
end

