-- ==== Sys2Proof/Machine/Accumulate.lean ====
section
/-! DEFINITION. The accumulate family: `INIT`, `UPD`, `FIN` (spec/41_accumulate.md). No command checks the state it is
issued in: "every command is legal at every time" (R60). -/

namespace Sys2Proof.Machine

/-- `INIT` (R61): CRC <- 0xFFFFFFFF; respond(0, 0xFFFFFFFF). -/
def execInit (s : State) : Host.Outcome State Fault Refusal :=
  .next (respond false seed (writeCrc seed s))

/-- `UPD b` (R63): CRC <- new; respond(0, new), where new = step(CRC, b). -/
def execUpd (b : Byte) (s : State) : Host.Outcome State Fault Refusal :=
  .next (respond false (crcStep s.crc b) (writeCrc (crcStep s.crc b) s))

/-- `FIN` (R66): respond(0, CRC ^ 0xFFFFFFFF); `CRC` is unchanged (R67). -/
def execFin (s : State) : Host.Outcome State Fault Refusal :=
  .next (respond false (finalize s.crc) s)

end Sys2Proof.Machine
end

