-- ==== Sys2Proof/Machine/Context.lean ====
section
/-! DEFINITION. The context family: `GETST`, `SETST` (spec/42_context.md), the register access pair of the core. -/

namespace Sys2Proof.Machine

/-- `GETST` (R69): respond(0, CRC), the raw state. -/
def execGetst (s : State) : Host.Outcome State Fault Refusal :=
  .next (respond false s.crc s)

/-- `SETST v` (R70): CRC <- v; respond(0, v); `v` is stored as it stands. -/
def execSetst (v : Word) (s : State) : Host.Outcome State Fault Refusal :=
  .next (respond false v (writeCrc v s))

end Sys2Proof.Machine
end

