-- ==== Sys2Proof/Machine/Table.lean ====
section
/-! DEFINITION. The table read command: `TBLRD` (spec/40_datapath_and_table.md R57). -/

namespace Sys2Proof.Machine

/-- `TBLRD i` (R57): respond(0, TBL[i]); `CRC` is unchanged. -/
def execTblrd (i : Byte) (s : State) : Host.Outcome State Fault Refusal :=
  .next (respond false (tblRead (tblrdIndex i)) s)

end Sys2Proof.Machine
end

