-- ==== Sys2Proof/Machine/Dispatch.lean ====
section
/-! DEFINITION. The dispatch: one arm per constructor of `Instr`, one call of its meaning
(spec/30_encoding.md R37, the semantics column). -/

namespace Sys2Proof.Machine

def exec (i : Instr) (s : State) : Host.Outcome State Fault Refusal :=
  match i with
  | .init => Sys2Proof.Machine.execInit s
  | .upd b => Sys2Proof.Machine.execUpd b s
  | .fin => Sys2Proof.Machine.execFin s
  | .getst => Sys2Proof.Machine.execGetst s
  | .setst v => Sys2Proof.Machine.execSetst v s
  | .tblrd k => Sys2Proof.Machine.execTblrd k s

end Sys2Proof.Machine
end

