-- ==== Sys2Proof/Machine/Port.lean ====
section
/-! DEFINITION. The command port, the response port and the reset input: what happens at one rising edge of `clk`
(spec/30_encoding.md R32 to R35, spec/70_reset_and_hazards.md R94 to R99). At an edge with `rst = 0` the core, in this
order, may accept the presented word, may execute the oldest queued command as a whole (spec/00_scope.md R6), and may
have its oldest response taken. -/

namespace Sys2Proof.Machine

/-- The command word on the port, `{cmd_op, cmd_arg}` (R33, R36). -/
def PortIn.word (p : PortIn) : CmdWord := cmdWord p.cmdOp p.cmdArg

/-- The response as its 33 bits, `{rsp_err, rsp_data}` (R32, R44). -/
def Response.bits (r : Response) : BitVec 33 := BitVec.ofBool r.err ++ r.data

/-- The word the host presents, if `cmd_valid = 1`. -/
def PortIn.offer (p : PortIn) : Option CmdWord := if p.cmdValid then some p.word else none

/-- An edge at which the host presents `w` and takes a response, and the core lets nothing wait. -/
def Edge.issue (w : CmdWord) : Edge :=
  { inp := { rst := false, cmdValid := true, cmdOp := opField w, cmdArg := argField w, rspReady := true }
    stall := false, busy := false, hold := false }

/-- An edge at which the host presents nothing and takes a response, and the core lets nothing wait. -/
def Edge.drain : Edge :=
  { inp := { rst := false, cmdValid := false, cmdOp := 0#4, cmdArg := 0#32, rspReady := true }
    stall := false, busy := false, hold := false }

/-- `cmd_ready`: low while `rst = 1`, low until the table is complete (R99), and low whenever the core stalls (R33). -/
def cmdReady (e : Edge) (s : State) : Bool := !e.inp.rst && s.fill == 0 && !e.stall

/-- A word is accepted if and only if `rst = 0`, `cmd_valid = 1` and `cmd_ready = 1` (R33). -/
def cmdAccepted (e : Edge) (s : State) : Bool := !e.inp.rst && e.inp.cmdValid && cmdReady e s

/-- The hold rule of R33: a word presented and not accepted at the last edge still stands unchanged on the port. -/
def offerKept (e : Edge) (s : State) : Bool :=
  match s.offered with
  | none => true
  | some w => e.inp.offer == some w

/-- The command port at one edge with `rst = 0`: the accepted word goes to the end of the queue, a word that is not
accepted stays on offer (R33), and the table fill moves on (R99). -/
def acceptPhase (e : Edge) (s : State) : State :=
  if cmdAccepted e s then
    { s with
      cmdQueue := s.cmdQueue ++ [e.inp.word]
      accepted := s.accepted ++ [e.inp.word]
      offered := none
      fill := s.fill - 1 }
  else
    { s with offered := e.inp.offer, fill := s.fill - 1 }

/-- Execution of one command word, legal or illegal: exactly one response each (R35, R41). -/
def runWord (w : CmdWord) (s : State) : Host.Outcome State Fault Refusal :=
  match decode w with
  | .legal i => exec i s
  | .illegal c => .next (raiseIllegal c s)

/-- The oldest queued command is executed, unless the core is busy (R28, R35). -/
def executePhase (e : Edge) (s : State) : Host.Outcome State Fault Refusal :=
  if e.busy then .next s
  else
    match s.cmdQueue with
    | [] => .next s
    | w :: ws => runWord w { s with cmdQueue := ws }

/-- The response on the port: the oldest undelivered one, raised at once or after a delay, and then kept (R34, R35). -/
def shownResponse (e : Edge) (s : State) : Option Response :=
  match s.rspQueue with
  | [] => none
  | r :: _ => if s.rspShown || !e.hold then some r else none

/-- The response port at one edge with `rst = 0`: a shown response is delivered if `rsp_ready = 1` and else stays (R34). -/
def deliverPhase (e : Edge) (s : State) : State :=
  match shownResponse e s with
  | none => s
  | some r =>
    if e.inp.rspReady then
      { s with rspQueue := s.rspQueue.tail, rspShown := false, delivered := s.delivered ++ [r] }
    else
      { s with rspShown := true }

/-- What the output ports show at an edge (R32): nothing ready and nothing valid while `rst = 1` (R94). -/
def portOut (e : Edge) (s : State) : PortOut :=
  if e.inp.rst then ⟨false, none⟩
  else
    match executePhase e (acceptPhase e s) with
    | .next m => ⟨cmdReady e s, shownResponse e m⟩
    | _ => ⟨cmdReady e s, none⟩

/-- One rising edge of `clk`: with `rst = 1` the reset (R95), which asks nothing of the host (R96); else, if the host has
kept its offer (R33), the three phases. -/
def onEdge (e : Edge) (s : State) : Host.Outcome State Fault Refusal :=
  if e.inp.rst then .next (applyReset e.inp.offer s)
  else if offerKept e s then
    andThen (executePhase e (acceptPhase e s)) fun m => .next (deliverPhase e m)
  else .refused .hostChangedOffer

/-- The state with `w` presented at the next edge, nothing queued before it, the table complete and no older word on
offer: the next step accepts and executes exactly `w`. -/
def presentNext (w : CmdWord) (s : State) : State :=
  { s with edges := Edge.issue w :: s.edges, cmdQueue := [], fill := 0, offered := none }

end Sys2Proof.Machine
end

