-- ==== Sys2Proof/Machine/Step.lean ====
section
/-! DEFINITION. One step: the next rising edge that the state lists (log 1). -/

namespace Sys2Proof.Machine

/-- The next listed edge happens. Where none is listed nothing is presented and nothing is taken: "the core idles with
`CRC` held" (spec/60_exceptions.md R93). -/
def step (s : State) : Host.Outcome State Fault Refusal :=
  match s.edges with
  | [] => .next s
  | e :: es => onEdge e { s with edges := es }

/-- `s` with the command word `w` presented at the next edge (log 7, log 12). -/
def State.withFetchWord (s : State) (_nbits w : Nat) : State := presentNext (BitVec.ofNat 36 w) s

end Sys2Proof.Machine
end

