-- ==== Sys2Proof/Machine/Sequential.lean ====
section
/-! DEFINITION. The sequential reading of the core at the level of whole commands: a total function from the raw state
and a command word to the new raw state and the response (spec/92_eei_decisions.md D5, spec/30_encoding.md R35), written
from the tables of spec/10_state.md R11 and R44, apart from the meanings that `exec` calls. -/

namespace Sys2Proof.Machine

/-- The value each command leaves in `CRC` (R11). -/
def crcAfter (c : Word) : Instr → Word
  | .init => 0xFFFFFFFF#32
  | .upd b => crcStep c b
  | .fin => c
  | .getst => c
  | .setst v => v
  | .tblrd _ => c

/-- `rsp_data` of each command (R44); `rsp_err` is 0. -/
def dataOf (c : Word) : Instr → Word
  | .init => 0xFFFFFFFF#32
  | .upd b => crcStep c b
  | .fin => c ^^^ 0xFFFFFFFF#32
  | .getst => c
  | .setst v => v
  | .tblrd i => tblRead i

/-- One command word, legal or illegal (R11, R44). -/
def seqWord (c : Word) (w : CmdWord) : Word × Response :=
  match decode w with
  | .legal i => (crcAfter c i, ⟨false, dataOf c i⟩)
  | .illegal k => (c, ⟨true, k.code⟩)

/-- The final raw state of a list of command words executed in order (R35, R106). -/
def seqCrc (c : Word) : List CmdWord → Word
  | [] => c
  | w :: ws => seqCrc (seqWord c w).1 ws

/-- The responses of a list of command words executed in order, one each (R35, R106). -/
def seqRsps (c : Word) : List CmdWord → List Response
  | [] => []
  | w :: ws => (seqWord c w).2 :: seqRsps (seqWord c w).1 ws

end Sys2Proof.Machine
end

