-- ==== Sys2Proof/Machine/Pseudo.lean ====
section
/-! DEFINITION. The pseudo-commands and their expansions (spec/30_encoding.md R46): they have no opcode. -/

namespace Sys2Proof.Machine

/-- `UPDATE [b0, ..., b(n-1)]`: the `n` commands `UPD b0`, ..., `UPD b(n-1)` (R46, R73). -/
def updateInstrs (data : List Byte) : List Instr := data.map Instr.upd

/-- `CHECKSUM data`: `INIT`, then `UPDATE data`, then `FIN` (R46, R75). -/
def checksumInstrs (data : List Byte) : List Instr := .init :: (updateInstrs data ++ [.fin])

/-- The words of a list of commands (R45). -/
def wordsOf (is : List Instr) : List CmdWord := is.map encode

end Sys2Proof.Machine
end

