-- ==== Sys2Proof/Machine/Text.lean ====
section
/-! DEFINITION. The text syntax of command sequences (spec/30_encoding.md R45) with the pseudo-commands of R46 and the
directive `.WORD`, and the host's rendering of a checksum (spec/43_composite.md R79). It reads lists of characters, by
structural recursion. A line that is no line of the grammar is "an error of the assembler, not of the core" (R45) and
reads as `none`. What the grammar leaves open (white space, the case of hexadecimal digits) is log 15. -/

namespace Sys2Proof.Machine

/-- A line of text, read (R45). -/
inductive Line where
  | blank
  | command (i : Instr)
  | word (w : CmdWord)             -- `.WORD`, emitted unchanged
  | update (data : List Byte)      -- `UPDATE`
  | checksum (data : List Byte)    -- `CHECKSUM`
  deriving DecidableEq, Repr

/-- The command words a line assembles to (R45, R46). -/
def assembleLine : Line → List CmdWord
  | .blank => []
  | .command i => [encode i]
  | .word w => [w]
  | .update data => wordsOf (updateInstrs data)
  | .checksum data => wordsOf (checksumInstrs data)

/-- `'`, written by its code. -/
def quoteChar : Char := Char.ofNat 39

/-- `"`, written by its code. -/
def doubleQuoteChar : Char := Char.ofNat 34

def isSpaceChar (c : Char) : Bool := c == ' ' || c == '\t' || c == '\r'

def skipSpaces : List Char → List Char
  | [] => []
  | c :: cs => if isSpaceChar c then skipSpaces cs else c :: cs

/-- The value of a decimal digit. -/
def decVal (c : Char) : Option Nat :=
  if 48 ≤ c.toNat ∧ c.toNat ≤ 57 then some (c.toNat - 48) else none

/-- The value of a hexadecimal digit, of either case. -/
def hexVal (c : Char) : Option Nat :=
  if 48 ≤ c.toNat ∧ c.toNat ≤ 57 then some (c.toNat - 48)
  else if 65 ≤ c.toNat ∧ c.toNat ≤ 70 then some (c.toNat - 55)
  else if 97 ≤ c.toNat ∧ c.toNat ≤ 102 then some (c.toNat - 87)
  else none

/-- At most `k` more hexadecimal digits: the value and the rest. -/
def moreHex : Nat → Nat → List Char → Nat × List Char
  | 0, v, cs => (v, cs)
  | _ + 1, v, [] => (v, [])
  | k + 1, v, c :: cs =>
    match hexVal c with
    | some d => moreHex k (16 * v + d) cs
    | none => (v, c :: cs)

/-- `hex{1,k}` with `k` at least 1. -/
def readHex (k : Nat) : List Char → Option (Nat × List Char)
  | [] => none
  | c :: cs => (hexVal c).map fun d => moreHex (k - 1) d cs

/-- More decimal digits: the value and the rest. -/
def moreDec (v : Nat) : List Char → Nat × List Char
  | [] => (v, [])
  | c :: cs =>
    match decVal c with
    | some d => moreDec (10 * v + d) cs
    | none => (v, c :: cs)

/-- A decimal number of at least one digit, below `2 ^ bits`. -/
def readDec (bits : Nat) : List Char → Option (Nat × List Char)
  | [] => none
  | c :: cs =>
    match decVal c with
    | none => none
    | some d => if (moreDec d cs).1 < 2 ^ bits then some (moreDec d cs) else none

/-- `"0x" hex{1,k}` or a decimal number below `2 ^ bits`. -/
def readNumber (k bits : Nat) : List Char → Option (Nat × List Char)
  | '0' :: 'x' :: cs => readHex k cs
  | cs => readDec bits cs

/-- `byte`: a number, or one ASCII character between apostrophes (R45). -/
def readByte : List Char → Option (Byte × List Char)
  | a :: c :: b :: cs =>
    if a = quoteChar then
      if b = quoteChar ∧ c.toNat < 128 then some (BitVec.ofNat 8 c.toNat, cs) else none
    else (readNumber 2 8 (a :: c :: b :: cs)).map fun p => (BitVec.ofNat 8 p.1, p.2)
  | cs => (readNumber 2 8 cs).map fun p => (BitVec.ofNat 8 p.1, p.2)

/-- `word` (R45). -/
def readWord (cs : List Char) : Option (Word × List Char) :=
  (readNumber 8 32 cs).map fun p => (BitVec.ofNat 32 p.1, p.2)

/-- `word36`: `"0x" hex{1,9}` (R45). -/
def readWord36 : List Char → Option (CmdWord × List Char)
  | '0' :: 'x' :: cs => (readHex 9 cs).map fun p => (BitVec.ofNat 36 p.1, p.2)
  | _ => none

/-- The rest of a `string` after its opening quote: one byte per ASCII character (R45, log 15). -/
def readString : List Char → Option (List Byte × List Char)
  | [] => none
  | c :: cs =>
    if c = doubleQuoteChar then some ([], cs)
    else if c.toNat < 128 then (readString cs).map fun p => (BitVec.ofNat 8 c.toNat :: p.1, p.2)
    else none

/-- The bytes of a list after at least one is due, up to the closing bracket; the first argument bounds the
number of bytes. -/
def readByteList : Nat → List Char → Option (List Byte × List Char)
  | 0, _ => none
  | k + 1, cs =>
    match readByte (skipSpaces cs) with
    | none => none
    | some (b, rest) =>
      match skipSpaces rest with
      | ']' :: more => some ([b], more)
      | ',' :: more => (readByteList k more).map fun p => (b :: p.1, p.2)
      | _ => none

/-- `bytes`: a string or a bracketed list (R45). -/
def readBytes : List Char → Option (List Byte × List Char)
  | [] => none
  | c :: cs =>
    if c = doubleQuoteChar then readString cs
    else if c = '[' then
      match skipSpaces cs with
      | ']' :: rest => some ([], rest)
      | rest => readByteList rest.length rest
    else none

/-- What may follow a command on its line: nothing, or a comment (R45). -/
def lineEnds (cs : List Char) : Bool :=
  match skipSpaces cs with
  | [] => true
  | c :: _ => c == ';'

/-- A character of a mnemonic: an upper-case letter, or the dot of `.WORD`. -/
def isMnemonicChar (c : Char) : Bool := (65 ≤ c.toNat && c.toNat ≤ 90) || c == '.'

/-- The mnemonic at the head of a line and the rest. -/
def readMnemonic : List Char → List Char × List Char
  | [] => ([], [])
  | c :: cs => if isMnemonicChar c then (c :: (readMnemonic cs).1, (readMnemonic cs).2) else ([], c :: cs)

/-- A line with an operand, if the rest of the line is empty or a comment. -/
def finishLine {α : Type} (f : α → Line) (o : Option (α × List Char)) : Option Line :=
  match o with
  | none => none
  | some (a, rest) => if lineEnds rest then some (f a) else none

/-- The operand of a mnemonic (R45). -/
def readOperand (m rest : List Char) : Option Line :=
  if m = ['I', 'N', 'I', 'T'] then finishLine (fun _ => .command .init) (some ((), rest))
  else if m = ['F', 'I', 'N'] then finishLine (fun _ => .command .fin) (some ((), rest))
  else if m = ['G', 'E', 'T', 'S', 'T'] then finishLine (fun _ => .command .getst) (some ((), rest))
  else if m = ['U', 'P', 'D'] then finishLine (fun b => .command (.upd b)) (readByte (skipSpaces rest))
  else if m = ['T', 'B', 'L', 'R', 'D'] then finishLine (fun b => .command (.tblrd b)) (readByte (skipSpaces rest))
  else if m = ['S', 'E', 'T', 'S', 'T'] then finishLine (fun v => .command (.setst v)) (readWord (skipSpaces rest))
  else if m = ['.', 'W', 'O', 'R', 'D'] then finishLine Line.word (readWord36 (skipSpaces rest))
  else if m = ['U', 'P', 'D', 'A', 'T', 'E'] then finishLine Line.update (readBytes (skipSpaces rest))
  else if m = ['C', 'H', 'E', 'C', 'K', 'S', 'U', 'M'] then finishLine Line.checksum (readBytes (skipSpaces rest))
  else none

/-- A line of text (R45): empty, a comment, or a command and perhaps a comment. -/
def readLine (cs : List Char) : Option Line :=
  if lineEnds cs then some .blank
  else readOperand (readMnemonic (skipSpaces cs)).1 (readMnemonic (skipSpaces cs)).2

/-- The lines of a text: "one command per line" (R45). -/
def splitLines : List Char → List (List Char)
  | [] => [[]]
  | c :: cs =>
    if c = '\n' then [] :: splitLines cs
    else
      match splitLines cs with
      | [] => [[c]]
      | l :: ls => (c :: l) :: ls

/-- The command words of a list of lines, if every one reads. -/
def assembleLines : List (List Char) → Option (List CmdWord)
  | [] => some []
  | l :: ls =>
    match readLine l, assembleLines ls with
    | some x, some ws => some (assembleLine x ++ ws)
    | _, _ => none

/-- A text assembled to the command words a host issues in order (R45). -/
def assemble (text : List Char) : Option (List CmdWord) := assembleLines (splitLines text)

/-- The hexadecimal digit of a 4-bit value, letters in upper case (R79). -/
def hexDigit (n : BitVec 4) : Char :=
  if n.toNat < 10 then Char.ofNat (48 + n.toNat) else Char.ofNat (55 + n.toNat)

/-- `%08X`: eight hexadecimal digits, most significant first, padded with `0` (R79). -/
def render08X (v : Word) : List Char :=
  [28, 24, 20, 16, 12, 8, 4, 0].map fun k => hexDigit (v.extractLsb' k 4)

end Sys2Proof.Machine
end

