-- ==== Sys2Proof/Safety.lean ====
section
/-! DEFINITION. What counts as a safe run, in the terms the statements use: the invariants of the machine, what is quiet,
which edges break the host's duty, and reachability. -/

namespace Sys2Proof.Machine

/-- "The values are those of a sequential machine" (spec/30_encoding.md R35): what was delivered, what waits to be delivered,
and what the queued commands will answer, together, are the answers of the accepted words executed one after another from the
seed; and the `CRC` that the queued commands will leave is the `CRC` of that sequential run. -/
def State.SeqInv (s : State) : Prop :=
  seqCrc s.crc s.cmdQueue = seqCrc seed s.accepted ∧
  s.delivered ++ s.rspQueue ++ seqRsps s.crc s.cmdQueue = seqRsps seed s.accepted

/-- "One response per command" (R35, R104), as a count: every accepted word is answered, waiting to be delivered, or queued. -/
def State.CountInv (s : State) : Prop :=
  s.accepted.length = s.delivered.length + s.rspQueue.length + s.cmdQueue.length

/-- A response that has been shown and not taken is still there (R34), and the table fill never has more left than a whole
fill (R99). -/
def State.PortInv (s : State) : Prop :=
  (s.rspShown = true → s.rspQueue ≠ []) ∧ s.fill ≤ fillLength

/-- Nothing in flight, nothing on offer, the table complete: the core is as after a reset but for `CRC` and the host's
records (spec/70_reset_and_hazards.md R95, R106). -/
def State.Quiet (s : State) : Prop :=
  s.cmdQueue = [] ∧ s.rspQueue = [] ∧ s.rspShown = false ∧ s.fill = 0 ∧ s.offered = none

/-- An edge at which the core can accept and execute at once: no reset, no stall, not busy. -/
def Edge.Open (e : Edge) : Prop := e.inp.rst = false ∧ e.stall = false ∧ e.busy = false

/-- The host breaks the hold rule of R33 at this edge: it is outside the spec (spec/93_implementation_defined.md U6). -/
def BreaksHold (e : Edge) (s : State) : Prop :=
  e.inp.rst = false ∧ ∃ w, s.offered = some w ∧ e.inp.offer ≠ some w

/-- `t` is reached from `s` in `k` steps. -/
def Reaches (s : State) (k : Nat) (t : State) : Prop := Host.Core.run Sys2Proof.core k s = .next t

end Sys2Proof.Machine
end

