-- ==== Sys2Proof/Certificates/Slice0/Obligations.lean ====
section
/-! DEFINITION. The statements for the provers. Each docstring names the rule of spec/ that the statement
formalises. -/

open Sys2Proof Sys2Proof.Machine

/-! ### The commands -/

/-- R61, whole: what `INIT` does in every state (all that is not named stays), its one word, and that a word with
`op = 0x1` and another `arg` is no `INIT`. -/
def Obligations.InitWritesSeed : Prop :=
  (∀ s : State, exec .init s =
    .next { s with crc := 0xFFFFFFFF#32, rspQueue := s.rspQueue ++ [⟨false, 0xFFFFFFFF#32⟩] }) ∧
  encode .init = 0x100000000#36 ∧ decode 0x100000000#36 = .legal .init ∧
  (∀ (arg : Word) (s : State), arg ≠ 0#32 →
    runWord (cmdWord 0x1#4 arg) s = .next { s with rspQueue := s.rspQueue ++ [⟨true, 0x00000002#32⟩] })

/-- R63, whole: what `UPD b` does in every state with every byte, its word, and that a word with `op = 0x2` and a
reserved bit set is no `UPD`. -/
def Obligations.UpdStepsTheAccumulator : Prop :=
  (∀ (b : Byte) (s : State),
    exec (.upd b) s =
      .next { s with
        crc := (s.crc >>> 8) ^^^ tblRead ((s.crc ^^^ b.setWidth 32).extractLsb' 0 8)
        rspQueue := s.rspQueue ++
          [⟨false, (s.crc >>> 8) ^^^ tblRead ((s.crc ^^^ b.setWidth 32).extractLsb' 0 8)⟩] }) ∧
  (∀ b : Byte, encode (.upd b) = 0x2#4 ++ (0#24 ++ b) ∧ decode (0x2#4 ++ (0#24 ++ b)) = .legal (.upd b)) ∧
  (∀ (hi : BitVec 24) (b : Byte) (s : State), hi ≠ 0#24 →
    runWord (0x2#4 ++ (hi ++ b)) s = .next { s with rspQueue := s.rspQueue ++ [⟨true, 0x00000002#32⟩] }) ∧
  (∀ s : State, s.crc = 0#32 → exec (.upd 0#8) s = .next { s with rspQueue := s.rspQueue ++ [⟨false, 0#32⟩] }) ∧
  (∀ s : State, exec (.upd (s.crc.extractLsb' 0 8)) s =
    .next { s with crc := s.crc >>> 8, rspQueue := s.rspQueue ++ [⟨false, s.crc >>> 8⟩] }) ∧
  (∀ s : State, s.crc = 0xFFFFFFFF#32 → runWord 0x200000061#36 s =
    .next { s with crc := 0x174841BC#32, rspQueue := s.rspQueue ++ [⟨false, 0x174841BC#32⟩] })

/-- R66, whole: `FIN` answers the complement of `CRC` and leaves every other part of the state as it was. -/
def Obligations.FinRespondsComplement : Prop :=
  (∀ s : State, exec .fin s =
    .next { s with rspQueue := s.rspQueue ++ [⟨false, s.crc ^^^ 0xFFFFFFFF#32⟩] }) ∧
  (∀ c : Word, c ^^^ 0xFFFFFFFF#32 = ~~~c) ∧
  encode .fin = 0x300000000#36 ∧ decode 0x300000000#36 = .legal .fin ∧
  (∀ (arg : Word) (s : State), arg ≠ 0#32 →
    runWord (cmdWord 0x3#4 arg) s = .next { s with rspQueue := s.rspQueue ++ [⟨true, 0x00000002#32⟩] })

/-- R69, whole: `GETST` answers the raw state, which differs from the answer of `FIN` in every bit while no command that
writes `CRC` executes between them, and which is the response of the `INIT`, `UPD` or `SETST` that last wrote `CRC`. -/
def Obligations.GetstRespondsRawState : Prop :=
  (∀ s : State, exec .getst s = .next { s with rspQueue := s.rspQueue ++ [⟨false, s.crc⟩] }) ∧
  (∀ s : State, ∃ a b : Word,
    exec .getst s = .next { s with rspQueue := s.rspQueue ++ [⟨false, a⟩] } ∧
    exec .fin s = .next { s with rspQueue := s.rspQueue ++ [⟨false, b⟩] } ∧ a ^^^ b = 0xFFFFFFFF#32) ∧
  (∀ (c : Word) (i : Instr) (ws : List CmdWord),
    (∀ w ∈ ws, decode w ≠ .legal .init ∧ (∀ b, decode w ≠ .legal (.upd b)) ∧ ∀ v, decode w ≠ .legal (.setst v)) →
    (i = .init ∨ (∃ b, i = .upd b) ∨ ∃ v, i = .setst v) →
    ∃ d : Word, (seqRsps c (encode i :: (ws ++ [encode .getst]))).head? = some ⟨false, d⟩ ∧
      (seqRsps c (encode i :: (ws ++ [encode .getst]))).getLast? = some ⟨false, d⟩ ∧
      (seqRsps c (encode i :: (ws ++ [encode .fin]))).getLast? = some ⟨false, d ^^^ 0xFFFFFFFF#32⟩) ∧
  encode .getst = 0x400000000#36 ∧ decode 0x400000000#36 = .legal .getst ∧
  (∀ (arg : Word) (s : State), arg ≠ 0#32 →
    runWord (cmdWord 0x4#4 arg) s = .next { s with rspQueue := s.rspQueue ++ [⟨true, 0x00000002#32⟩] })

/-- R70, whole: `SETST v` stores every 32-bit value as it stands; no word with `op = 0x5` is illegal; `SETST 0xFFFFFFFF`
is `INIT` in effect and response. -/
def Obligations.SetstLoadsRawState : Prop :=
  (∀ (v : Word) (s : State),
    exec (.setst v) s = .next { s with crc := v, rspQueue := s.rspQueue ++ [⟨false, v⟩] }) ∧
  (∀ v : Word, encode (.setst v) = 0x5#4 ++ v ∧ decode (0x5#4 ++ v) = .legal (.setst v)) ∧
  (∀ s : State, exec (.setst 0xFFFFFFFF#32) s = exec .init s) ∧
  (∀ (c : Word) (s : State), ∃ t, exec (.setst (c ^^^ 0xFFFFFFFF#32)) s = .next t ∧ finalize t.crc = c) ∧
  crcStep 0x00000000#32 0x00#8 = 0x00000000#32 ∧ finalize 0x174841BC#32 = 0xE8B7BE43#32

/-- R57, whole: `TBLRD i` answers the table entry for every index and changes nothing else. -/
def Obligations.TblrdRespondsEntry : Prop :=
  (∀ (i : Byte) (s : State),
    exec (.tblrd i) s = .next { s with rspQueue := s.rspQueue ++ [⟨false, tblRead i⟩] }) ∧
  (∀ i : Byte, encode (.tblrd i) = 0x6#4 ++ (0#24 ++ i) ∧ decode (0x6#4 ++ (0#24 ++ i)) = .legal (.tblrd i)) ∧
  (∀ (hi : BitVec 24) (i : Byte) (s : State), hi ≠ 0#24 →
    runWord (0x6#4 ++ (hi ++ i)) s = .next { s with rspQueue := s.rspQueue ++ [⟨true, 0x00000002#32⟩] }) ∧
  tblRead 0#8 = 0#32 ∧ tblRead 1#8 = 0x77073096#32

/-- R11, whole. What writes `CRC` and with which value: six commands, an illegal word, a reset edge. What reads it: `UPD`, `FIN`
and `GETST` answer differently wherever `CRC` differs; `INIT`, `SETST`, `TBLRD` and illegal words answer alike in all states. No
other path: a step that changes `CRC` is a reset edge or executes `INIT`, `UPD` or `SETST`; and of two states that differ only in
`CRC` the ports show the same but for a response that is computed at this very edge, and a step leaves the same in every field but
`CRC` and the responses computed. (Edges: log 1.) -/
def Obligations.CrcWritersAreTheTable : Prop :=
  (∀ (i : Instr) (s : State), ∃ t, exec i s = .next t ∧
    t.crc = match i with
      | .init => 0xFFFFFFFF#32
      | .upd b => stepFb s.crc b
      | .fin => s.crc
      | .getst => s.crc
      | .setst v => v
      | .tblrd _ => s.crc) ∧
  (∀ (w : CmdWord) (s : State), w.wellFormed = false → ∃ t, runWord w s = .next t ∧ t.crc = s.crc) ∧
  (∀ (s : State) (e : Edge) (es : List Edge), s.edges = e :: es → e.inp.rst = true →
    ∃ t, step s = .next t ∧ t.crc = 0xFFFFFFFF#32) ∧
  (∀ i : Instr, (i = .init ∨ (∃ v, i = .setst v) ∨ ∃ k, i = .tblrd k) →
    ∃ d : Word, ∀ s : State, ∃ t, exec i s = .next t ∧ t.rspQueue = s.rspQueue ++ [⟨false, d⟩]) ∧
  (∀ w : CmdWord, w.wellFormed = false →
    ∃ d : Word, ∀ s : State, ∃ t, runWord w s = .next t ∧ t.rspQueue = s.rspQueue ++ [⟨true, d⟩]) ∧
  (∀ i : Instr, ((∃ b, i = .upd b) ∨ i = .fin ∨ i = .getst) →
    ∀ s s' : State, s.crc ≠ s'.crc →
      ∃ (t t' : State) (d d' : Word), exec i s = .next t ∧ exec i s' = .next t' ∧
        t.rspQueue = s.rspQueue ++ [⟨false, d⟩] ∧ t'.rspQueue = s'.rspQueue ++ [⟨false, d'⟩] ∧ d ≠ d') ∧
  (∀ s t : State, step s = .next t → t.crc ≠ s.crc →
    ∃ (e : Edge) (es : List Edge), s.edges = e :: es ∧
      (e.inp.rst = true ∨ ∃ (w : CmdWord) (i : Instr),
        (s.cmdQueue ++ [e.inp.word]).head? = some w ∧ decode w = .legal i ∧
        (i = .init ∨ (∃ b, i = .upd b) ∨ ∃ v, i = .setst v))) ∧
  (∀ (s : State) (c : Word) (e : Edge),
    (portOut e { s with crc := c }).cmdReady = (portOut e s).cmdReady ∧
    (portOut e { s with crc := c }).rsp.isSome = (portOut e s).rsp.isSome ∧
    (s.rspQueue ≠ [] → (portOut e { s with crc := c }).rsp = (portOut e s).rsp)) ∧
  (∀ (s t : State) (c : Word), step s = .next t →
    ∃ u : State, step { s with crc := c } = .next u ∧
      u.cmdQueue = t.cmdQueue ∧ u.rspShown = t.rspShown ∧ u.fill = t.fill ∧ u.offered = t.offered ∧
      u.edges = t.edges ∧ u.accepted = t.accepted ∧
      u.rspQueue.length = t.rspQueue.length ∧ u.delivered.length = t.delivered.length)

/-- The frame of all six commands (`INIT`, `UPD`, `FIN`, `GETST`, `SETST`, `TBLRD`; R11, R35, R81): a command touches only
`CRC`, which only `INIT`, `UPD` and `SETST` write, and the response queue, which gets exactly one response, without error. -/
def Obligations.CommandFrame : Prop :=
  ∀ (i : Instr) (s t : State), exec i s = .next t →
    t.cmdQueue = s.cmdQueue ∧ t.rspShown = s.rspShown ∧ t.fill = s.fill ∧ t.offered = s.offered ∧
    t.edges = s.edges ∧ t.accepted = s.accepted ∧ t.delivered = s.delivered ∧
    (∃ r : Response, t.rspQueue = s.rspQueue ++ [r] ∧ r.err = false) ∧
    (match i with
      | .init => True
      | .upd _ => True
      | .setst _ => True
      | .fin => t.crc = s.crc
      | .getst => t.crc = s.crc
      | .tblrd _ => t.crc = s.crc)

/-! ### Illegal words -/

/-- R81: a word that the opcode table (R41) defines never raises, whatever the state: it answers with `rsp_err = 0`. -/
def Obligations.WellFormedWordsNeverRaise : Prop :=
  ∀ (w : CmdWord) (s : State), w.wellFormed = true →
    ∃ (t : State) (d : Word), runWord w s = .next t ∧ t.rspQueue = s.rspQueue ++ [⟨false, d⟩]

/-- R82: the complete effect of `IllegalCommand`: one response with the cause, and nothing else, in every state; and that a
word raises exactly where no row of the table defines it. -/
def Obligations.IllegalWordEffect : Prop :=
  (∀ (w : CmdWord) (s : State) (c : Cause), decode w = .illegal c →
    runWord w s = .next { s with rspQueue := s.rspQueue ++
      [⟨true, match c with | .reservedOpcode => 1#32 | .reservedOperandBits => 2#32⟩] }) ∧
  (∀ w : CmdWord, w.wellFormed = false ↔ ∃ c, decode w = .illegal c)

/-- R42: which words are illegal, with which cause, and how many words are legal. -/
def Obligations.IllegalWordsAreTheseWords : Prop :=
  (∀ (op : BitVec 4) (arg : Word),
    (decode (cmdWord op arg) = .illegal .reservedOpcode ↔ op = 0#4 ∨ 7 ≤ op.toNat) ∧
    (decode (cmdWord op arg) = .illegal .reservedOperandBits ↔
      ((op = 1#4 ∨ op = 3#4 ∨ op = 4#4) ∧ arg ≠ 0#32) ∨
      ((op = 2#4 ∨ op = 6#4) ∧ arg.extractLsb' 8 24 ≠ 0#24))) ∧
  (∀ (w : CmdWord) (s : State), w.wellFormed = false →
    ∃ (t : State) (k : Word), runWord w s = .next t ∧ t.crc = s.crc ∧
      t.rspQueue = s.rspQueue ++ [⟨true, k⟩] ∧
      (decode w = .illegal .reservedOpcode ∧ k = 1#32 ∨ decode w = .illegal .reservedOperandBits ∧ k = 2#32)) ∧
  decode 0x000000000#36 = .illegal .reservedOpcode ∧ decode 0xFFFFFFFFF#36 = .illegal .reservedOpcode ∧
  Nat.card { w : CmdWord // ∃ i, decode w = .legal i } = 3 + 256 + 256 + 2 ^ 32

/-- R83: the counts of the words of each cause. -/
def Obligations.IllegalWordCounts : Prop :=
  Nat.card { w : CmdWord // decode w = .illegal .reservedOpcode } = 10 * 2 ^ 32 ∧
  Nat.card { w : CmdWord // decode w = .illegal .reservedOperandBits } = 3 * (2 ^ 32 - 1) + 2 * (2 ^ 32 - 256)

/-- R86: illegal words in the middle of a list of commands do no harm: the `CRC` and the responses without error are those of
the list without them, and each illegal word gets a response of its own with `rsp_err = 1`. -/
def Obligations.IllegalWordsDoNoHarm : Prop :=
  ∀ (c : Word) (ws : List CmdWord),
    seqCrc c ws = seqCrc c (ws.filter CmdWord.wellFormed) ∧
    (seqRsps c ws).filter (fun r => !r.err) = seqRsps c (ws.filter CmdWord.wellFormed) ∧
    (seqRsps c ws).map Response.err = ws.map fun w => !w.wellFormed

/-! ### Encoding -/

/-- Decoding an encoded command gives it back, with every operand at every value (R36 to R41). -/
def Obligations.DecodeEncodeAgree : Prop :=
  ∀ i : Instr, decode (encode i) = .legal i

/-- A legal word is the word its command assembles to: decoding drops no bit (R36 to R41, R45). -/
def Obligations.LegalWordsAreEncodings : Prop :=
  ∀ (w : CmdWord) (i : Instr), decode w = .legal i → encode i = w

/-- R41, whole: the decoder is the match and mask table: a word decodes to a command of a row exactly if the row selects it, with
the operand in its field; no two rows select one word; and a word that no row selects is illegal, with cause 1 exactly if no row
has its opcode. -/
def Obligations.DecoderIsTheMatchTable : Prop :=
  (∀ (w : CmdWord) (r : OpRow), r ∈ opcodeTable →
    (r.selects w = true ↔ ∃ i : Instr, decode w = .legal i ∧ i.row = r)) ∧
  (∀ (w : CmdWord) (r q : OpRow), r ∈ opcodeTable → q ∈ opcodeTable → r.selects w = true → q.selects w = true → r = q) ∧
  (∀ w : CmdWord, (∀ r ∈ opcodeTable, r.selects w = false) ↔ ∃ c, decode w = .illegal c) ∧
  (∀ (w : CmdWord) (c : Cause), decode w = .illegal c →
    (c = .reservedOpcode ↔ ∀ r ∈ opcodeTable, w.extractLsb' 32 4 ≠ r.mtch.extractLsb' 32 4)) ∧
  (∀ w : CmdWord,
    (∀ b, decode w = .legal (.upd b) → b = w.extractLsb' 0 8) ∧
    (∀ v, decode w = .legal (.setst v) → v = w.extractLsb' 0 32) ∧
    (∀ i, decode w = .legal (.tblrd i) → i = w.extractLsb' 0 8))

/-- The words of R45 as numbers. -/
def Obligations.AssembledWordNumbers : Prop :=
  (encode .init).toNat = 0x100000000 ∧
  (∀ b : Byte, (encode (.upd b)).toNat = 0x200000000 + b.toNat) ∧
  (encode .fin).toNat = 0x300000000 ∧
  (encode .getst).toNat = 0x400000000 ∧
  (∀ v : Word, (encode (.setst v)).toNat = 0x500000000 + v.toNat) ∧
  (∀ i : Byte, (encode (.tblrd i)).toNat = 0x600000000 + i.toNat)

/-- Words written out bit by bit from the spec decode to what they stand for (95_test_vectors.md 4.3). -/
def Obligations.WrittenWordsDecode : Prop :=
  decode 0b000100000000000000000000000000000000#36 = .legal .init ∧
  decode 0b001000000000000000000000000001100001#36 = .legal (.upd 0x61#8) ∧
  decode 0b001100000000000000000000000000000000#36 = .legal .fin ∧
  decode 0b010000000000000000000000000000000000#36 = .legal .getst ∧
  decode 0b010100010111010010000100000110111100#36 = .legal (.setst 0x174841BC#32) ∧
  decode 0b011000000000000000000000000010011110#36 = .legal (.tblrd 0x9E#8) ∧
  decode 0b001000000000000000000000000100000000#36 = .illegal .reservedOperandBits ∧
  decode 0b011100000000000000000000000001100001#36 = .illegal .reservedOpcode

/-! ### The datapath -/

/-- R49: the one-bit step bit by bit, the places of the ones of `POLY`, and the corner cases. -/
def Obligations.OneBitStepBits : Prop :=
  (∀ s : Word, g s = if s.getLsbD 0 then (s >>> 1) ^^^ 0xEDB88320#32 else s >>> 1) ∧
  (∀ s : Word, (g s).getLsbD 31 = s.getLsbD 0) ∧
  (∀ (s : Word) (k : Nat), k ≤ 30 → (g s).getLsbD k = (s.getLsbD (k + 1) ^^ (s.getLsbD 0 && poly.getLsbD k))) ∧
  (∀ k : Nat, poly.getLsbD k = true ↔ k ∈ [31, 30, 29, 27, 26, 24, 23, 21, 20, 19, 15, 9, 8, 5]) ∧
  g 0x00000000#32 = 0x00000000#32 ∧ g 0x00000001#32 = 0xEDB88320#32 ∧ g 0x00000002#32 = 0x00000001#32 ∧
  g 0xFFFFFFFF#32 = 0x92477CDF#32 ∧ g 0x076DC419#32 = 0xEE0E612C#32

/-- R13, R50: `build_table` makes 256 entries, each the byte value stepped eight times, and the table the commands read holds
exactly them; with the eight values of the worked example. -/
def Obligations.TableIsBuildTable : Prop :=
  buildTable.length = 256 ∧
  ∀ i : Byte, buildTable[i.toNat]? = some (tblRead i) ∧
    tblEntry i = g (g (g (g (g (g (g (g (i.setWidth 32)))))))) ∧ tblRead i = tblEntry i ∧
    ((List.range 8).map fun n => gIter (n + 1) 0x00000001#32) =
      [0xEDB88320#32, 0x76DC4190#32, 0x3B6E20C8#32, 0x1DB71064#32, 0x0EDB8832#32, 0x076DC419#32, 0xEE0E612C#32, 0x77073096#32]

/-- R51, whole: the facts about the table, (f) as: every state answers `TBLRD i` with the same value. -/
def Obligations.TableFacts : Prop :=
  tblRead 0x00#8 = 0x00000000#32 ∧
  tblRead 0x80#8 = 0xEDB88320#32 ∧ tblRead 0x40#8 = 0x76DC4190#32 ∧ tblRead 0x20#8 = 0x3B6E20C8#32 ∧
  tblRead 0x10#8 = 0x1DB71064#32 ∧ tblRead 0x08#8 = 0x0EDB8832#32 ∧ tblRead 0x04#8 = 0x076DC419#32 ∧
  tblRead 0x02#8 = 0xEE0E612C#32 ∧ tblRead 0x01#8 = 0x77073096#32 ∧
  (∀ i j : Byte, tblRead (i ^^^ j) = tblRead i ^^^ tblRead j) ∧
  (∀ i j : Byte, tblRead i = tblRead j → i = j) ∧
  (∀ i j : Byte, (tblRead i).extractLsb' 24 8 = (tblRead j).extractLsb' 24 8 → i = j) ∧
  tblRead 0xFF#8 = 0x2D02EF8D#32 ∧
  buildTable.foldl (fun x y => x ^^^ y) 0#32 = 0#32 ∧
  (∀ i : Byte, ∃ d : Word, ∀ s : State, exec (.tblrd i) s = .next { s with rspQueue := s.rspQueue ++ [⟨false, d⟩] })

/-- R54: the table form and the feedback form of the one-byte step are the same function, which is the step of `UPD`. -/
def Obligations.StepFormsAgree : Prop :=
  ∀ (s : Word) (b : Byte), stepFb s b = stepTbl s b ∧ crcStep s b = stepFb s b

/-- R52, whole: the feedback form folds the byte into the low bits and takes eight one-bit steps; at state 0 it is the table
entry; and the serial implementation, one data bit a clock with `b[0]` first, reaches the same value. -/
def Obligations.SerialFormAgrees : Prop :=
  (∀ (s : Word) (b : Byte), stepSerial s b = stepFb s b ∧
    stepFb s b = g (g (g (g (g (g (g (g (s ^^^ b.setWidth 32)))))))) ∧
    [b.getLsbD 0, b.getLsbD 1, b.getLsbD 2, b.getLsbD 3, b.getLsbD 4, b.getLsbD 5, b.getLsbD 6, b.getLsbD 7].foldl
      (fun v d => g (v ^^^ (BitVec.ofBool d).setWidth 32)) s = stepFb s b) ∧
  (∀ b : Byte, stepFb 0#32 b = tblEntry b ∧ stepTbl 0#32 b = tblEntry b) ∧
  stepFb 0xFFFFFFFF#32 0x61#8 = 0x174841BC#32

/-- R55: linearity of the one-bit step and its four consequences. -/
def Obligations.Linearity : Prop :=
  (∀ x y : Word, g (x ^^^ y) = g x ^^^ g y) ∧ g 0#32 = 0#32 ∧
  (∀ i j : Byte, tblEntry (i ^^^ j) = tblEntry i ^^^ tblEntry j) ∧
  (∀ (s t : Word) (b c : Byte), crcStep (s ^^^ t) (b ^^^ c) = crcStep s b ^^^ crcStep t c) ∧
  (∀ (s : Word) (b : Byte), crcStep s b = crcStep s 0#8 ^^^ tblRead b) ∧
  (∀ (s : Word) (b : Byte), crcStep s b = crcStep (s ^^^ b.setWidth 32) 0#8)

/-- R56, whole: the one-bit step and the one-byte step have inverses on all 32-bit states, so no two raw states merge and every
value is reachable; bit 31 of `g(s)` is bit 0 of `s`; in the table form the index is found, uniquely, by the top byte. -/
def Obligations.StepIsBijective : Prop :=
  (∀ s : Word, ginv (g s) = s ∧ (g s).getLsbD 31 = s.getLsbD 0) ∧ (∀ t : Word, g (ginv t) = t) ∧
  (∀ (s : Word) (b : Byte), crcUnstep (crcStep s b) b = s) ∧
  (∀ (t : Word) (b : Byte), crcStep (crcUnstep t b) b = t) ∧
  (∀ b : Byte, Function.Bijective fun s => crcStep s b) ∧
  (∀ (t : Word) (b : Byte), ∃ k : Byte,
    (tblRead k).extractLsb' 24 8 = t.extractLsb' 24 8 ∧
    (∀ j : Byte, (tblRead j).extractLsb' 24 8 = t.extractLsb' 24 8 → j = k) ∧
    crcStep ((t ^^^ tblRead k).extractLsb' 0 24 ++ (k ^^^ b)) b = t)

/-! ### Whole messages -/

/-- R76: the incremental property, as functions and as commands: the two ways of issuing the message are one command list. -/
def Obligations.IncrementalUpdate : Prop :=
  (∀ (s : Word) (a b : List Byte), update s (a ++ b) = update (update s a) b) ∧
  (∀ a b : List Byte, checksum (a ++ b) = finalize (update (update seed a) b)) ∧
  (∀ a b : List Byte,
    wordsOf ([.init] ++ updateInstrs a ++ updateInstrs b ++ [.fin]) = wordsOf (checksumInstrs (a ++ b)))

/-- R73: the words of `UPDATE data` leave `update(s, data)` and their `k`-th response is the state after `k` bytes; words
that do not write `CRC` may stand between them without changing the result. -/
def Obligations.UpdatePseudoCommand : Prop :=
  (∀ (s : Word) (data : List Byte), seqCrc s (wordsOf (updateInstrs data)) = update s data) ∧
  (∀ (s : Word) (data : List Byte) (k : Nat), k < data.length →
    (seqRsps s (wordsOf (updateInstrs data)))[k]? = some ⟨false, update s (data.take (k + 1))⟩) ∧
  (∀ (s : Word) (ws : List CmdWord),
    (∀ w ∈ ws, decode w ≠ .legal .init ∧ ∀ v, decode w ≠ .legal (.setst v)) →
    seqCrc s ws = update s (ws.filterMap fun w => match decode w with
      | .legal (.upd b) => some b
      | _ => none))

/-- R75: the words of `CHECKSUM data` answer `checksum(data)` at the end, whatever `CRC` held, and leave
`update(0xFFFFFFFF, data)`; they are `n + 2` responses; a second `CHECKSUM` is independent of the first. -/
def Obligations.ChecksumPseudoCommand : Prop :=
  ∀ (c : Word) (data : List Byte),
    (seqRsps c (wordsOf (checksumInstrs data))).getLast? = some ⟨false, checksum data⟩ ∧
    seqCrc c (wordsOf (checksumInstrs data)) = update 0xFFFFFFFF#32 data ∧
    (seqRsps c (wordsOf (checksumInstrs data))).length = data.length + 2 ∧
    ∀ more : List Byte,
      (seqRsps c (wordsOf (checksumInstrs data ++ checksumInstrs more))).getLast? = some ⟨false, checksum more⟩

/-- R67, whole: `FIN` ends nothing: two in a row answer alike and leave `CRC`, and `INIT, UPDATE a, FIN, UPDATE b, FIN` answers `checksum(a)` to the first `FIN` and
`checksum(a ++ b)` to the second. -/
def Obligations.FinEndsNothing : Prop :=
  ∀ (c : Word) (a b : List Byte),
    ∃ first second : List Response,
      seqRsps c (wordsOf ([.init] ++ updateInstrs a ++ [.fin] ++ updateInstrs b ++ [.fin])) =
        first ++ [⟨false, checksum a⟩] ++ second ++ [⟨false, checksum (a ++ b)⟩] ∧
      first.length = a.length + 1 ∧ second.length = b.length ∧
      seqCrc c [encode .fin] = c ∧ ∃ r, seqRsps c [encode .fin, encode .fin] = [r, r]

/-- R71, whole: the save and restore law: whatever `P` did, the commands after `SETST s` answer and leave `CRC` as if they had
followed the `GETST` that answered `s`; in particular a message saved after `a` and continued with `b` ends with the checksum of
`a ++ b`. -/
def Obligations.SaveAndRestore : Prop :=
  ∀ (c : Word) (p q : List CmdWord),
    ∃ (s : Word) (between : List Response),
      seqRsps c ([encode .getst] ++ p ++ [encode (.setst s)] ++ q) =
        [⟨false, s⟩] ++ between ++ [⟨false, s⟩] ++ seqRsps c q ∧
      between.length = p.length ∧
      seqCrc c ([encode .getst] ++ p ++ [encode (.setst s)] ++ q) = seqCrc c q ∧
      ∀ a b : List Byte, c = update seed a →
        (seqRsps c ([encode .getst] ++ p ++ [encode (.setst s)] ++ wordsOf (updateInstrs b ++ [.fin]))).getLast? =
          some ⟨false, checksum (a ++ b)⟩

/-- R80: the residue: a message followed by its checksum, least significant byte first, leaves one fixed raw state. -/
def Obligations.ResidueIsConstant : Prop :=
  ∀ m : List Byte,
    update 0xFFFFFFFF#32 (m ++ leBytes (checksum m)) = 0xDEBB20E3#32 ∧
    checksum (m ++ leBytes (checksum m)) = 0x2144DF1C#32

/-- R78 and the pair of R64: the known answers. -/
def Obligations.KnownAnswers : Prop :=
  checksum [0x31#8, 0x32#8, 0x33#8, 0x34#8, 0x35#8, 0x36#8, 0x37#8, 0x38#8, 0x39#8] = 0xCBF43926#32 ∧
  checksum [] = 0x00000000#32 ∧
  checksum [0x61#8] = 0xE8B7BE43#32 ∧
  checksum [0x61#8, 0x62#8] = 0x9E83486D#32 ∧ checksum [0x62#8, 0x61#8] = 0x2CA74A14#32

/-! ### Steps, reset and runs -/

/-- A step runs the decoded instruction: at an edge without reset, where the host keeps its offer and the core is not busy,
the oldest queued word (a word accepted at this edge among them) is executed: a legal one by `exec`, an illegal one by
`IllegalCommand`; around it the step accepts and delivers (R33, R34, R35, R41).
What an edge does besides, and in which order, is the model's choice (log 1, log 2). -/
def Obligations.StepRunsDecodedInstruction : Prop :=
  ∀ (s : State) (e : Edge) (es : List Edge) (w : CmdWord) (ws : List CmdWord),
    s.edges = e :: es → e.inp.rst = false → e.busy = false → offerKept e s = true →
    (acceptPhase e { s with edges := es }).cmdQueue = w :: ws →
    (∀ i : Instr, decode w = .legal i →
      step s = andThen (exec i { acceptPhase e { s with edges := es } with cmdQueue := ws })
        fun m => .next (deliverPhase e m)) ∧
    (∀ c : Cause, decode w = .illegal c →
      step s = .next (deliverPhase e (raiseIllegal c { acceptPhase e { s with edges := es } with cmdQueue := ws })))

/-- A word placed by `withFetchWord` is the word the very next step executes, in every state (R33, R35).
How a word is placed is the model's choice (log 7, log 12). -/
def Obligations.FetchedWordRunsNext : Prop :=
  ∀ (s : State) (n w : Nat) (i : Instr), decodeTableWord n w = some i →
    step (s.withFetchWord n w) =
      andThen (exec i { s with cmdQueue := [], fill := 0, offered := none,
                               accepted := s.accepted ++ [BitVec.ofNat 36 w] })
        fun m => .next (deliverPhase (Edge.issue (BitVec.ofNat 36 w)) m)

/-- R95: what a rising edge with `rst = 1` writes, in every state; and that `CRC` and the queues are then as they are after an
`INIT` whose response has been delivered.
That the fill is a counter of edges of this length is the model's choice (log 6). -/
def Obligations.ResetEdgeWrites : Prop :=
  ∀ (s : State) (e : Edge) (es : List Edge), s.edges = e :: es → e.inp.rst = true →
    ∃ t : State, step s = .next t ∧
      t.crc = 0xFFFFFFFF#32 ∧ t.cmdQueue = [] ∧ t.rspQueue = [] ∧
      (Config.tableStorage = .rom → t.fill = 0) ∧
      (Config.tableStorage = .ramBuiltInReset → 256 ≤ t.fill) ∧
      (∀ q : State, q.Quiet →
        ∃ u : State, step { q with edges := [Edge.issue (encode .init)] } = .next u ∧
          u.crc = t.crc ∧ u.cmdQueue = t.cmdQueue ∧ u.rspQueue = t.rspQueue ∧ u.rspShown = t.rspShown)

/-- R94: while `rst = 1` the core shows neither `cmd_ready` nor `rsp_valid`, accepts nothing and delivers nothing.
That the two records start again at a reset is the model's choice (log 9), and so is the form of the output ports (log 10). -/
def Obligations.NothingMovesInReset : Prop :=
  ∀ (s t : State) (e : Edge) (es : List Edge), s.edges = e :: es → e.inp.rst = true →
    portOut e s = ⟨false, none⟩ ∧ (step s = .next t → t.accepted = [] ∧ t.delivered = [])

/-- R96: a reset edge cuts off all that was in flight: whatever the state before it, the machine then meets the sequential
reading with no word accepted, so no later response answers an earlier word.
That the records start again at a reset is the model's choice (log 9). -/
def Obligations.ResetRestoresInvariant : Prop :=
  ∀ (s t : State) (e : Edge) (es : List Edge), s.edges = e :: es → e.inp.rst = true → step s = .next t →
    t.SeqInv ∧ t.CountInv ∧ t.PortInv ∧ t.accepted = [] ∧
    ∀ (k : Nat) (u : State), Reaches t k u → ∃ rest, u.delivered ++ rest = seqRsps 0xFFFFFFFF#32 u.accepted

/-- The state after reset meets every invariant and is quiet (R95, R96, R106).
That the launch state has the table complete and no word on offer is the model's choice (log 7). -/
def Obligations.ResetMeetsInvariants : Prop :=
  State.reset.SeqInv ∧ State.reset.CountInv ∧ State.reset.PortInv ∧ State.reset.Quiet ∧
  State.reset.crc = 0xFFFFFFFF#32 ∧ State.reset.accepted = [] ∧ State.reset.delivered = []

/-- R35: every step keeps the sequential reading: the responses delivered, waiting and still to be computed are those of the
accepted words executed one after another.
The records it speaks of are the model's (log 9). -/
def Obligations.StepKeepsSequentialReading : Prop :=
  ∀ s t : State, s.SeqInv → step s = .next t → t.SeqInv

/-- R35, R104: every step keeps the count: one response for each accepted word.
The records it speaks of are the model's (log 9). -/
def Obligations.StepKeepsResponseCount : Prop :=
  ∀ s t : State, s.CountInv → step s = .next t → t.CountInv

/-- R34, R99: every step keeps a shown response present and the fill counter in range.
The fill counter is the model's reading (log 6). -/
def Obligations.StepKeepsPortInv : Prop :=
  ∀ s t : State, s.PortInv → step s = .next t → t.PortInv

/-- R33: a word is accepted in an edge if and only if `rst = 0`, `cmd_valid = 1` and `cmd_ready = 1` there, the word is the
one on the port, and `cmd_ready` is low in reset, until the table is complete, and where the core stalls.
Edges, stall bits and the record of accepted words are the model's (log 1, log 6, log 9). -/
def Obligations.AcceptanceRule : Prop :=
  ∀ (s t : State) (e : Edge) (es : List Edge), s.edges = e :: es → step s = .next t →
    ((portOut e s).cmdReady = true → e.inp.rst = false ∧ s.fill = 0 ∧ e.stall = false) ∧
    (e.inp.rst = false → s.fill = 0 → e.stall = false → (portOut e s).cmdReady = true) ∧
    (e.inp.rst = false →
      t.accepted = s.accepted ++
        (if e.inp.cmdValid = true ∧ (portOut e s).cmdReady = true then [e.inp.cmdOp ++ e.inp.cmdArg] else []))

/-- R34: a response is delivered in an edge if and only if `rst = 0`, `rsp_valid = 1` and `rsp_ready = 1` there, and it is the
one on the port; while it is shown and not taken it is shown again at every later edge until a reset.
Edges, the form of the output ports and the record of delivered responses are the model's (log 1, log 9, log 10). -/
def Obligations.DeliveryRule : Prop :=
  (∀ (s t : State) (e : Edge) (es : List Edge), s.edges = e :: es → step s = .next t → e.inp.rst = false →
    t.delivered = s.delivered ++
      (match (portOut e s).rsp with
        | none => []
        | some r => if e.inp.rspReady = true then [r] else [])) ∧
  (∀ (s t : State) (e f : Edge) (es : List Edge) (r : Response), s.edges = e :: f :: es → step s = .next t →
    (portOut e s).rsp = some r → e.inp.rspReady = false → f.inp.rst = false → (portOut f t).rsp = some r)

/-- R33, R99: what an edge leaves of the edges to come, of the word on offer and of the table fill. The edge itself is used up,
whether or not anything executes. A word that is presented and not accepted, at a reset edge too, is on offer afterwards, and after
an accepted word, or where none is presented, nothing is; and where the host then does not hold a word on offer at an edge without
reset, the step is refused. Without reset the fill moves on by one. A state with no edge listed is left as it is. The field `offered`
and at which edges the rule binds the host are the model's reading (log 1, log 6, log 8). -/
def Obligations.EdgeLeavesOfferAndEdges : Prop :=
  (∀ (s t : State) (e : Edge) (es : List Edge), s.edges = e :: es → step s = .next t →
    t.edges = es ∧
    t.offered =
      (if e.inp.cmdValid = true ∧ (portOut e s).cmdReady = false then some (e.inp.cmdOp ++ e.inp.cmdArg) else none) ∧
    (e.inp.rst = false → t.fill = s.fill - 1)) ∧
  (∀ (s t : State) (e f : Edge) (es : List Edge), s.edges = e :: f :: es → step s = .next t →
    e.inp.cmdValid = true → (portOut e s).cmdReady = false → f.inp.rst = false →
    ¬ (f.inp.cmdValid = true ∧ f.inp.cmdOp = e.inp.cmdOp ∧ f.inp.cmdArg = e.inp.cmdArg) →
    step t = .refused .hostChangedOffer) ∧
  (∀ s : State, s.edges = [] → step s = .next s)

/-- R33, U6: the only way a step stops is the host breaking the hold rule, and it then always stops; every other step has a
next state, and no step faults.
At which edges the rule binds the host is the model's reading (log 8). -/
def Obligations.StepStopsOnlyOnBrokenHold : Prop :=
  ∀ s : State,
    ((∃ t, step s = .next t) ↔ ¬ ∃ e es, s.edges = e :: es ∧ BreaksHold e s) ∧
    (step s = .refused .hostChangedOffer ↔ ∃ e es, s.edges = e :: es ∧ BreaksHold e s)

/-- R92: nothing changes `CRC` but a reset edge and the execution of one accepted word, which changes it as the sequential
reading says.
That one edge executes at most one word is the model's reading (log 2). -/
def Obligations.OnlyCommandsChangeCrc : Prop :=
  ∀ s t : State, step s = .next t → t.crc ≠ s.crc →
    ∃ e es, s.edges = e :: es ∧
      ((e.inp.rst = true ∧ t.crc = 0xFFFFFFFF#32) ∨
        (e.inp.rst = false ∧ ∃ w : CmdWord,
          s.cmdQueue ++ (if e.inp.cmdValid = true ∧ (portOut e s).cmdReady = true then [e.inp.word] else []) =
            w :: t.cmdQueue ∧
          t.crc = (seqWord s.crc w).1))

/-- R99: while the table fill has edges left, no command is accepted: `k` edges without a reset, `k` at most what is left,
accept nothing.
The fill counter is the model's reading (log 6). -/
def Obligations.NothingAcceptedDuringFill : Prop :=
  ∀ (k : Nat) (s t : State), k ≤ s.fill → (∀ e ∈ s.edges.take k, e.inp.rst = false) → Reaches s k t →
    t.accepted = s.accepted ∧ s.fill - k ≤ t.fill

/-- R106: a list of words issued in order from a quiet state ends, after as many steps as there are words, with the `CRC` of
their sequential execution and with their responses, one each, delivered in order; nothing else has changed.
The edge that issues a word is the model's (log 1), and so are the records (log 9). -/
def Obligations.RunOfIssuedWords : Prop :=
  ∀ (s : State) (ws : List CmdWord) (es : List Edge), s.Quiet → s.edges = ws.map Edge.issue ++ es →
    Reaches s ws.length
      { s with
        crc := seqCrc s.crc ws
        edges := es
        accepted := s.accepted ++ ws
        delivered := s.delivered ++ seqRsps s.crc ws }

/-- R9: the checksum depends on the bytes only: in every quiet state, whatever `CRC` holds and whatever happened before, the
edges that issue `CHECKSUM data` end with the response `checksum(data)`.
The edge that issues a word is the model's (log 1). -/
def Obligations.ChecksumDependsOnBytesOnly : Prop :=
  ∀ (s : State) (data : List Byte) (es : List Edge), s.Quiet →
    s.edges = (wordsOf (checksumInstrs data)).map Edge.issue ++ es →
    ∃ t : State, Reaches s (data.length + 2) t ∧ t.crc = update 0xFFFFFFFF#32 data ∧
      t.delivered.getLast? = some ⟨false, update 0xFFFFFFFF#32 data ^^^ 0xFFFFFFFF#32⟩ ∧
      t.delivered.length = s.delivered.length + data.length + 2

/-- R35, R104: the responses delivered in any run are, in order, the first responses of the sequential execution of the words
accepted since the last reset.
The records it speaks of are the model's (log 9). -/
def Obligations.DeliveredMatchByOrder : Prop :=
  ∀ (s t : State) (k : Nat), s.SeqInv → Reaches s k t →
    ∃ rest, t.delivered ++ rest = seqRsps 0xFFFFFFFF#32 t.accepted

/-- R101: timing affects no value: two runs with the same accepted words, whatever their stalls, delays and lengths, agree on
`CRC` and on every response once nothing is in flight.
The records it speaks of are the model's (log 9), and the free timing bits are its form of `LAT` (log 1). -/
def Obligations.TimingAffectsNoValue : Prop :=
  ∀ (s s' t t' : State) (k k' : Nat), s.SeqInv → s'.SeqInv → Reaches s k t → Reaches s' k' t' →
    t.accepted = t'.accepted → t.cmdQueue = [] → t'.cmdQueue = [] → t.rspQueue = [] → t'.rspQueue = [] →
    t.crc = t'.crc ∧ t.delivered = t'.delivered

/-- R101 with R33, R34: every accepted command is answered if the host takes responses and the core does not delay: after as
many such edges as commands and responses are in flight, all are delivered, with the sequential values. Where a word is on offer
and the host holds it until the table is complete, it is accepted and answered too.
The edges without delay are the model's form of the rule's finite waits (log 1, log 2). -/
def Obligations.EveryCommandIsAnswered : Prop :=
  (∀ (s : State) (k : Nat) (es : List Edge), s.offered = none →
    s.cmdQueue.length + s.rspQueue.length ≤ k → s.edges = List.replicate k Edge.drain ++ es →
    ∃ t : State, Reaches s k t ∧ t.cmdQueue = [] ∧ t.rspQueue = [] ∧ t.crc = seqCrc s.crc s.cmdQueue ∧
      t.delivered = s.delivered ++ s.rspQueue ++ seqRsps s.crc s.cmdQueue ∧ t.accepted = s.accepted) ∧
  (∀ (s : State) (w : CmdWord) (k : Nat) (es : List Edge), s.offered = some w →
    s.cmdQueue.length + s.rspQueue.length ≤ k →
    s.edges = List.replicate (s.fill + 1) (Edge.issue w) ++ List.replicate k Edge.drain ++ es →
    ∃ t : State, Reaches s (s.fill + 1 + k) t ∧ t.cmdQueue = [] ∧ t.rspQueue = [] ∧
      t.crc = seqCrc s.crc (s.cmdQueue ++ [w]) ∧
      t.delivered = s.delivered ++ s.rspQueue ++ seqRsps s.crc (s.cmdQueue ++ [w]) ∧
      t.accepted = s.accepted ++ [w])

/-! ### Text -/

/-- R79: the rendering of a checksum has eight digits and reads back as the number.
That both cases of digits read is the model's choice (log 15). -/
def Obligations.RenderingReadsBack : Prop :=
  ∀ v : Word, (render08X v).length = 8 ∧ readWord ('0' :: 'x' :: render08X v) = some (v, [])
end

