-- ==== Sys2Proof/Laws/Datapath.lean ====
section
/-! SUPPORT. The small lemmas of the datapath functions and of the sequential reading, one for each equation of their
definitions. -/

namespace Sys2Proof.Machine

@[simp] theorem gIter_zero (v : Word) : gIter 0 v = v := rfl

theorem gIter_succ (n : Nat) (v : Word) : gIter (n + 1) v = gIter n (g v) := rfl

@[simp] theorem ginvIter_zero (v : Word) : ginvIter 0 v = v := rfl

theorem ginvIter_succ (n : Nat) (v : Word) : ginvIter (n + 1) v = ginvIter n (ginv v) := rfl

/-- Two runs of one-bit steps are one (R50, R80). -/
theorem gIter_add (m n : Nat) (v : Word) : gIter (m + n) v = gIter n (gIter m v) := by
  induction m generalizing v with
  | zero => simp
  | succ m ih => rw [Nat.succ_add, gIter_succ, gIter_succ, ih]

@[simp] theorem update_nil (s : Word) : update s [] = s := rfl

@[simp] theorem update_cons (s : Word) (b : Byte) (rest : List Byte) :
    update s (b :: rest) = update (crcStep s b) rest := rfl

@[simp] theorem seqCrc_nil (c : Word) : seqCrc c [] = c := rfl

@[simp] theorem seqCrc_cons (c : Word) (w : CmdWord) (ws : List CmdWord) :
    seqCrc c (w :: ws) = seqCrc (seqWord c w).1 ws := rfl

@[simp] theorem seqRsps_nil (c : Word) : seqRsps c [] = [] := rfl

@[simp] theorem seqRsps_cons (c : Word) (w : CmdWord) (ws : List CmdWord) :
    seqRsps c (w :: ws) = (seqWord c w).2 :: seqRsps (seqWord c w).1 ws := rfl

/-- Commands in two parts: the second part starts from the `CRC` that the first leaves (R35). -/
theorem seqCrc_append (c : Word) (ws vs : List CmdWord) : seqCrc c (ws ++ vs) = seqCrc (seqCrc c ws) vs := by
  induction ws generalizing c with
  | nil => rfl
  | cons w ws ih => exact ih _

/-- The responses of commands in two parts (R35). -/
theorem seqRsps_append (c : Word) (ws vs : List CmdWord) :
    seqRsps c (ws ++ vs) = seqRsps c ws ++ seqRsps (seqCrc c ws) vs := by
  induction ws generalizing c with
  | nil => rfl
  | cons w ws ih => exact congrArg _ (ih _)

/-- One response per command (R35). -/
@[simp] theorem seqRsps_length (c : Word) (ws : List CmdWord) : (seqRsps c ws).length = ws.length := by
  induction ws generalizing c with
  | nil => rfl
  | cons w ws ih => simp [ih]

/-- The sequential reading of a word that decodes to a command (R11, R44). -/
theorem seqWord_of_legal (c : Word) (w : CmdWord) (i : Instr) (h : decode w = .legal i) :
    seqWord c w = (crcAfter c i, ⟨false, dataOf c i⟩) := by
  simp [seqWord, h]

/-- The sequential reading of an illegal word (R82). -/
theorem seqWord_of_illegal (c : Word) (w : CmdWord) (k : Cause) (h : decode w = .illegal k) :
    seqWord c w = (c, ⟨true, k.code⟩) := by
  simp [seqWord, h]

end Sys2Proof.Machine
end

