-- ==== Sys2Proof/Laws/Decode.lean ====
section
/-! SUPPORT. The bits of a word built from its fields, and its fields (R36, R39). -/

namespace Sys2Proof

/-- The bits of `{op, arg}` (R36). -/
theorem cmdWord_getLsbD (op : BitVec 4) (arg : Word) (k : Nat) :
    (cmdWord op arg).getLsbD k = if k < 32 then arg.getLsbD k else op.getLsbD (k - 32) :=
  BitVec.getLsbD_append

/-- The bits of `arg[31:8]` beside `arg[7:0]` (R39). -/
theorem argBytes_getLsbD (hi : BitVec 24) (b : Byte) (k : Nat) :
    BitVec.getLsbD (w := 32) (hi ++ b) k = if k < 8 then b.getLsbD k else hi.getLsbD (k - 8) :=
  BitVec.getLsbD_append

@[simp] theorem opField_cmdWord (op : BitVec 4) (arg : Word) : opField (cmdWord op arg) = op := by
  refine BitVec.eq_of_getLsbD_eq fun k hk => ?_
  simp [opField, cmdWord_getLsbD, hk]

@[simp] theorem argField_cmdWord (op : BitVec 4) (arg : Word) : argField (cmdWord op arg) = arg := by
  refine BitVec.eq_of_getLsbD_eq fun k hk => ?_
  simp only [argField, BitVec.getLsbD_extractLsb', cmdWord_getLsbD, Nat.zero_add, hk, decide_true, Bool.true_and, if_true]

/-- A word is its two fields (R36). -/
theorem cmdWord_fields (w : CmdWord) : cmdWord (opField w) (argField w) = w := by
  refine BitVec.eq_of_getLsbD_eq fun k hk => ?_
  rw [cmdWord_getLsbD]
  split
  · simp only [argField, BitVec.getLsbD_extractLsb', Nat.zero_add, decide_true, Bool.true_and, *]
  · simp only [opField, BitVec.getLsbD_extractLsb', show k - 32 < 4 by omega, show 32 + (k - 32) = k by omega,
      decide_true, Bool.true_and]

/-- The reserved part of a format B operand is what was put there (R39). -/
@[simp] theorem high_append (hi : BitVec 24) (b : Byte) : BitVec.extractLsb' (n := 32) 8 24 (hi ++ b) = hi := by
  refine BitVec.eq_of_getLsbD_eq fun k hk => ?_
  simp [argBytes_getLsbD, hk]

/-- The byte of a format B operand is what was put there (R39). -/
@[simp] theorem byte_append (hi : BitVec 24) (b : Byte) : BitVec.extractLsb' (n := 32) 0 8 (hi ++ b) = b := by
  refine BitVec.eq_of_getLsbD_eq fun k hk => ?_
  simp only [BitVec.getLsbD_extractLsb', argBytes_getLsbD, Nat.zero_add, hk, decide_true, Bool.true_and, if_true]

/-- A format B operand is its two parts (R39). -/
theorem parts_append (arg : Word) : (arg.extractLsb' 8 24 ++ arg.extractLsb' 0 8 : Word) = arg := by
  refine BitVec.eq_of_getLsbD_eq fun k hk => ?_
  rw [argBytes_getLsbD]
  split
  · simp only [BitVec.getLsbD_extractLsb', Nat.zero_add, decide_true, Bool.true_and, *]
  · simp only [BitVec.getLsbD_extractLsb', show k - 8 < 24 by omega, show 8 + (k - 8) = k by omega,
      decide_true, Bool.true_and]

/-- The decoder on a word given by its fields (R41). -/
theorem decode_cmdWord (op : BitVec 4) (arg : Word) :
    decode (cmdWord op arg) =
      if op = 0x1#4 then (if arg = 0#32 then .legal .init else .illegal .reservedOperandBits)
      else if op = 0x2#4 then
        (if arg.extractLsb' 8 24 = 0#24 then .legal (.upd (arg.extractLsb' 0 8)) else .illegal .reservedOperandBits)
      else if op = 0x3#4 then (if arg = 0#32 then .legal .fin else .illegal .reservedOperandBits)
      else if op = 0x4#4 then (if arg = 0#32 then .legal .getst else .illegal .reservedOperandBits)
      else if op = 0x5#4 then .legal (.setst arg)
      else if op = 0x6#4 then
        (if arg.extractLsb' 8 24 = 0#24 then .legal (.tblrd (arg.extractLsb' 0 8)) else .illegal .reservedOperandBits)
      else .illegal .reservedOpcode := by
  simp only [decode, decodeN, decodeB, argHigh, argByte, opField_cmdWord, argField_cmdWord]

end Sys2Proof
end

