-- ==== Sys2Proof/Laws/State.lean ====
section
/-! SUPPORT. What each named operation writes and leaves: one lemma for each field of `State` and each operation of
Machine/Ops.lean, so that no later proof unfolds a record update. -/

namespace Sys2Proof.Machine

@[simp] theorem writeCrc_crc (v : Word) (s : State) :
    (writeCrc v s).crc = v := rfl

@[simp] theorem writeCrc_cmdQueue (v : Word) (s : State) :
    (writeCrc v s).cmdQueue = s.cmdQueue := rfl

@[simp] theorem writeCrc_rspQueue (v : Word) (s : State) :
    (writeCrc v s).rspQueue = s.rspQueue := rfl

@[simp] theorem writeCrc_rspShown (v : Word) (s : State) :
    (writeCrc v s).rspShown = s.rspShown := rfl

@[simp] theorem writeCrc_fill (v : Word) (s : State) :
    (writeCrc v s).fill = s.fill := rfl

@[simp] theorem writeCrc_offered (v : Word) (s : State) :
    (writeCrc v s).offered = s.offered := rfl

@[simp] theorem writeCrc_edges (v : Word) (s : State) :
    (writeCrc v s).edges = s.edges := rfl

@[simp] theorem writeCrc_accepted (v : Word) (s : State) :
    (writeCrc v s).accepted = s.accepted := rfl

@[simp] theorem writeCrc_delivered (v : Word) (s : State) :
    (writeCrc v s).delivered = s.delivered := rfl

@[simp] theorem respond_crc (e : Bool) (d : Word) (s : State) :
    (respond e d s).crc = s.crc := rfl

@[simp] theorem respond_cmdQueue (e : Bool) (d : Word) (s : State) :
    (respond e d s).cmdQueue = s.cmdQueue := rfl

@[simp] theorem respond_rspQueue (e : Bool) (d : Word) (s : State) :
    (respond e d s).rspQueue = s.rspQueue ++ [⟨e, d⟩] := rfl

@[simp] theorem respond_rspShown (e : Bool) (d : Word) (s : State) :
    (respond e d s).rspShown = s.rspShown := rfl

@[simp] theorem respond_fill (e : Bool) (d : Word) (s : State) :
    (respond e d s).fill = s.fill := rfl

@[simp] theorem respond_offered (e : Bool) (d : Word) (s : State) :
    (respond e d s).offered = s.offered := rfl

@[simp] theorem respond_edges (e : Bool) (d : Word) (s : State) :
    (respond e d s).edges = s.edges := rfl

@[simp] theorem respond_accepted (e : Bool) (d : Word) (s : State) :
    (respond e d s).accepted = s.accepted := rfl

@[simp] theorem respond_delivered (e : Bool) (d : Word) (s : State) :
    (respond e d s).delivered = s.delivered := rfl

@[simp] theorem raiseIllegal_crc (c : Cause) (s : State) :
    (raiseIllegal c s).crc = s.crc := rfl

@[simp] theorem raiseIllegal_cmdQueue (c : Cause) (s : State) :
    (raiseIllegal c s).cmdQueue = s.cmdQueue := rfl

@[simp] theorem raiseIllegal_rspQueue (c : Cause) (s : State) :
    (raiseIllegal c s).rspQueue = s.rspQueue ++ [⟨true, c.code⟩] := rfl

@[simp] theorem raiseIllegal_rspShown (c : Cause) (s : State) :
    (raiseIllegal c s).rspShown = s.rspShown := rfl

@[simp] theorem raiseIllegal_fill (c : Cause) (s : State) :
    (raiseIllegal c s).fill = s.fill := rfl

@[simp] theorem raiseIllegal_offered (c : Cause) (s : State) :
    (raiseIllegal c s).offered = s.offered := rfl

@[simp] theorem raiseIllegal_edges (c : Cause) (s : State) :
    (raiseIllegal c s).edges = s.edges := rfl

@[simp] theorem raiseIllegal_accepted (c : Cause) (s : State) :
    (raiseIllegal c s).accepted = s.accepted := rfl

@[simp] theorem raiseIllegal_delivered (c : Cause) (s : State) :
    (raiseIllegal c s).delivered = s.delivered := rfl

@[simp] theorem applyReset_crc (o : Option CmdWord) (s : State) :
    (applyReset o s).crc = seed := rfl

@[simp] theorem applyReset_cmdQueue (o : Option CmdWord) (s : State) :
    (applyReset o s).cmdQueue = [] := rfl

@[simp] theorem applyReset_rspQueue (o : Option CmdWord) (s : State) :
    (applyReset o s).rspQueue = [] := rfl

@[simp] theorem applyReset_rspShown (o : Option CmdWord) (s : State) :
    (applyReset o s).rspShown = false := rfl

@[simp] theorem applyReset_fill (o : Option CmdWord) (s : State) :
    (applyReset o s).fill = fillLength := rfl

@[simp] theorem applyReset_offered (o : Option CmdWord) (s : State) :
    (applyReset o s).offered = o := rfl

@[simp] theorem applyReset_edges (o : Option CmdWord) (s : State) :
    (applyReset o s).edges = s.edges := rfl

@[simp] theorem applyReset_accepted (o : Option CmdWord) (s : State) :
    (applyReset o s).accepted = [] := rfl

@[simp] theorem applyReset_delivered (o : Option CmdWord) (s : State) :
    (applyReset o s).delivered = [] := rfl

end Sys2Proof.Machine
end

