-- ==== Sys2Proof/Laws/Ops.lean ====
section
/-! SUPPORT. For each shared operation of the step, one lemma that says everything it can do. -/

namespace Sys2Proof.Machine

@[simp] theorem andThen_next (s : State) (f : State → Host.Outcome State Fault Refusal) :
    andThen (.next s) f = f s := rfl

/-- Everything `exec` can do: it always answers a next state, in which only `CRC` and the response queue differ, by the
sequential reading of the command (R11, R44, R81). -/
theorem exec_eq (i : Instr) (s : State) :
    exec i s = .next { s with crc := crcAfter s.crc i, rspQueue := s.rspQueue ++ [⟨false, dataOf s.crc i⟩] } := by
  cases i <;> rfl

/-- Everything the execution of a word can do (R35, R82). -/
theorem runWord_eq (w : CmdWord) (s : State) :
    runWord w s =
      .next { s with crc := (seqWord s.crc w).1, rspQueue := s.rspQueue ++ [(seqWord s.crc w).2] } := by
  unfold runWord seqWord
  cases decode w with
  | legal i => exact exec_eq i s
  | illegal c => rfl

/-- Everything the execute phase can do: nothing, or the execution of the oldest queued word (R28, R35). -/
theorem executePhase_cases (e : Edge) (s : State) :
    (executePhase e s = .next s ∧ (e.busy = true ∨ s.cmdQueue = [])) ∨
    (∃ w ws, e.busy = false ∧ s.cmdQueue = w :: ws ∧ executePhase e s =
      .next { s with
        crc := (seqWord s.crc w).1
        cmdQueue := ws
        rspQueue := s.rspQueue ++ [(seqWord s.crc w).2] }) := by
  unfold executePhase
  cases hb : e.busy with
  | true => exact .inl ⟨by simp, .inl rfl⟩
  | false =>
    cases hq : s.cmdQueue with
    | nil => exact .inl ⟨by simp, .inr rfl⟩
    | cons w ws => exact .inr ⟨w, ws, rfl, rfl, by simp [runWord_eq]⟩

/-- The execute phase always has a next state (R81, R82). -/
theorem executePhase_next (e : Edge) (s : State) : ∃ m, executePhase e s = .next m := by
  obtain ⟨h, -⟩ | ⟨w, ws, -, -, h⟩ := executePhase_cases e s
  · exact ⟨_, h⟩
  · exact ⟨_, h⟩

/-- Everything the accept phase can do (R33, R99). -/
theorem acceptPhase_cases (e : Edge) (s : State) :
    (cmdAccepted e s = true ∧ acceptPhase e s =
      { s with
        cmdQueue := s.cmdQueue ++ [e.inp.word]
        accepted := s.accepted ++ [e.inp.word]
        offered := none
        fill := s.fill - 1 }) ∨
    (cmdAccepted e s = false ∧ acceptPhase e s = { s with offered := e.inp.offer, fill := s.fill - 1 }) := by
  unfold acceptPhase
  cases h : cmdAccepted e s with
  | true => exact .inl ⟨rfl, by simp⟩
  | false => exact .inr ⟨rfl, by simp⟩

/-- Everything the deliver phase can do: nothing, delivering the oldest response, or showing it (R34). -/
theorem deliverPhase_cases (e : Edge) (s : State) :
    (shownResponse e s = none ∧ deliverPhase e s = s) ∨
    (∃ r rs, s.rspQueue = r :: rs ∧ shownResponse e s = some r ∧ e.inp.rspReady = true ∧
      deliverPhase e s = { s with rspQueue := rs, rspShown := false, delivered := s.delivered ++ [r] }) ∨
    (∃ r rs, s.rspQueue = r :: rs ∧ shownResponse e s = some r ∧ e.inp.rspReady = false ∧
      deliverPhase e s = { s with rspShown := true }) := by
  unfold deliverPhase
  cases h : shownResponse e s with
  | none => exact .inl ⟨rfl, rfl⟩
  | some r =>
    obtain ⟨rs, hq⟩ : ∃ rs, s.rspQueue = r :: rs := by
      unfold shownResponse at h
      cases hq : s.rspQueue with
      | nil => simp [hq] at h
      | cons q rs =>
        simp only [hq] at h
        split at h
        · exact ⟨rs, by simpa using h⟩
        · simp at h
    cases hr : e.inp.rspReady with
    | true => exact .inr (.inl ⟨r, rs, hq, rfl, rfl, by simp [hq]⟩)
    | false => exact .inr (.inr ⟨r, rs, hq, rfl, rfl, by simp⟩)

/-- What the execute phase leaves: all but `CRC`, the command queue and the response queue (R11, R35). -/
theorem executePhase_frame (e : Edge) (s m : State) (h : executePhase e s = .next m) :
    m.rspShown = s.rspShown ∧ m.fill = s.fill ∧ m.offered = s.offered ∧ m.edges = s.edges ∧
    m.accepted = s.accepted ∧ m.delivered = s.delivered := by
  obtain ⟨h', -⟩ | ⟨w, ws, -, -, h'⟩ := executePhase_cases e s <;> rw [h'] at h <;> cases h <;>
    exact ⟨rfl, rfl, rfl, rfl, rfl, rfl⟩

/-- What the accept phase leaves, and that the fill moves on (R33, R99). -/
theorem acceptPhase_frame (e : Edge) (s : State) :
    (acceptPhase e s).crc = s.crc ∧ (acceptPhase e s).rspQueue = s.rspQueue ∧
    (acceptPhase e s).rspShown = s.rspShown ∧ (acceptPhase e s).fill = s.fill - 1 ∧
    (acceptPhase e s).edges = s.edges ∧ (acceptPhase e s).delivered = s.delivered := by
  obtain ⟨-, h⟩ | ⟨-, h⟩ := acceptPhase_cases e s <;> rw [h] <;> exact ⟨rfl, rfl, rfl, rfl, rfl, rfl⟩

/-- What the deliver phase leaves: all but the response queue, the shown bit and the delivered responses (R34). -/
theorem deliverPhase_frame (e : Edge) (s : State) :
    (deliverPhase e s).crc = s.crc ∧ (deliverPhase e s).cmdQueue = s.cmdQueue ∧
    (deliverPhase e s).fill = s.fill ∧ (deliverPhase e s).offered = s.offered ∧
    (deliverPhase e s).edges = s.edges ∧ (deliverPhase e s).accepted = s.accepted := by
  obtain ⟨-, h⟩ | ⟨_, _, -, -, -, h⟩ | ⟨_, _, -, -, -, h⟩ := deliverPhase_cases e s <;> rw [h] <;>
    exact ⟨rfl, rfl, rfl, rfl, rfl, rfl⟩

/-- Everything a step can do (R33, R93, R95): no edge is listed and nothing changes; a reset edge; an edge whose three phases
happen; or an edge at which the host breaks the hold rule. -/
theorem step_cases (s : State) :
    (s.edges = [] ∧ step s = .next s) ∨
    (∃ e es, s.edges = e :: es ∧ e.inp.rst = true ∧
      step s = .next (applyReset e.inp.offer { s with edges := es })) ∨
    (∃ e es m, s.edges = e :: es ∧ e.inp.rst = false ∧ offerKept e s = true ∧
      executePhase e (acceptPhase e { s with edges := es }) = .next m ∧ step s = .next (deliverPhase e m)) ∨
    (∃ e es, s.edges = e :: es ∧ e.inp.rst = false ∧ offerKept e s = false ∧
      step s = .refused .hostChangedOffer) := by
  unfold step
  cases he : s.edges with
  | nil => exact .inl ⟨rfl, rfl⟩
  | cons e es =>
    refine .inr ?_
    obtain ⟨m, hm⟩ := executePhase_next e (acceptPhase e { s with edges := es })
    have hk : offerKept e { s with edges := es } = offerKept e s := rfl
    cases hr : e.inp.rst with
    | true => exact .inl ⟨e, es, rfl, hr, by simp [onEdge, hr]⟩
    | false =>
      cases ho : offerKept e s with
      | true => exact .inr (.inl ⟨e, es, m, rfl, hr, ho, hm, by simp [onEdge, hr, hk, ho, hm]⟩)
      | false => exact .inr (.inr ⟨e, es, rfl, hr, ho, by simp [onEdge, hr, hk, ho]⟩)

end Sys2Proof.Machine
end

