-- ==== Sys2Proof/Laws/PerInstr.lean ====
section
/-! SUPPORT. The family `InTable`: each command's row is a row of the opcode table, and its encoding carries the row's opcode
in its top four bits (R37, R41). One lemma for each constructor. -/

namespace Sys2Proof.Laws.InTable

/-- The row of the instruction is in the table, and the word's `op` is that of the row's match value. -/
def Statement (i : Instr) : Prop := i.row ∈ opcodeTable ∧ opField (encode i) = opField i.row.mtch

theorem init : Statement .init :=
  ⟨List.mem_of_getElem? (i := 0) rfl, (opField_cmdWord _ _).trans rfl⟩

theorem upd (b : Byte) : Statement (.upd b) :=
  ⟨List.mem_of_getElem? (i := 1) rfl, (opField_cmdWord _ _).trans (show 0x2#4 = opField 0x200000000#36 by decide)⟩

theorem fin : Statement .fin :=
  ⟨List.mem_of_getElem? (i := 2) rfl, (opField_cmdWord _ _).trans rfl⟩

theorem getst : Statement .getst :=
  ⟨List.mem_of_getElem? (i := 3) rfl, (opField_cmdWord _ _).trans rfl⟩

theorem setst (v : Word) : Statement (.setst v) :=
  ⟨List.mem_of_getElem? (i := 4) rfl, (opField_cmdWord _ _).trans (show 0x5#4 = opField 0x500000000#36 by decide)⟩

theorem tblrd (i : Byte) : Statement (.tblrd i) :=
  ⟨List.mem_of_getElem? (i := 5) rfl, (opField_cmdWord _ _).trans (show 0x6#4 = opField 0x600000000#36 by decide)⟩

end Sys2Proof.Laws.InTable
end

