-- ==== Sys2Proof/Laws/Run.lean ====
section
/-! SUPPORT. Runs, one step at a time, and the induction over a run, once. -/

namespace Sys2Proof.Machine

@[simp] theorem reaches_zero (s t : State) : Reaches s 0 t ↔ s = t :=
  ⟨fun h => Host.Outcome.next.inj h, fun h => congrArg Host.Outcome.next h⟩

/-- A run of `k + 1` steps is a step and a run of `k` steps. -/
theorem reaches_succ (s t : State) (k : Nat) : Reaches s (k + 1) t ↔ ∃ u, step s = .next u ∧ Reaches u k t := by
  have h : Host.Core.run Sys2Proof.core (k + 1) s =
      andThen (step s) fun u => Host.Core.run Sys2Proof.core k u := by
    refine (Host.Core.run.eq_2 Sys2Proof.core s k).trans ?_
    change _ = andThen (Sys2Proof.core.step s) _
    cases Sys2Proof.core.step s <;> rfl
  unfold Reaches
  rw [h]
  cases step s <;> simp [andThen]

/-- What every step keeps holds along every run. -/
theorem reaches_induction (P : State → Prop) (keeps : ∀ s t, P s → step s = .next t → P t) (k : Nat) (s t : State)
    (hs : P s) (h : Reaches s k t) : P t := by
  induction k generalizing s with
  | zero => exact (reaches_zero s t).1 h ▸ hs
  | succ k ih =>
    obtain ⟨u, hu, hr⟩ := (reaches_succ s t k).1 h
    exact ih u (keeps s u hs hu) hr

end Sys2Proof.Machine
end

