-- ==== Sys2Proof/Tests/Slice0.lean ====
section
/-! SUPPORT. The model's own tests. Every expected value is taken from spec/95_test_vectors.md or from a worked example of a
rule, as each test says; the witnesses show concrete inputs that meet the hypotheses of the statements. -/

namespace Sys2Proof.Tests

open Sys2Proof.Machine

/-! ### Helpers -/

/-- The launch state with another `CRC` and a list of edges. -/
def start (c : Word) (es : List Edge) : State := { State.reset with crc := c, edges := es }

/-- The next state of an outcome, to compare by `decide`. -/
def nextOf : Host.Outcome State Fault Refusal → Option State
  | .next s => some s
  | _ => none

/-- `CRC` and the responses delivered after one step that issues the word `w` with `CRC = c`. -/
def issued (c : Word) (w : CmdWord) : Option (Word × List Response) :=
  (nextOf (step (start c [Edge.issue w]))).map fun s => (s.crc, s.delivered)

/-! ### Decoding (95_test_vectors.md 4.3) and well-formedness -/

theorem test_decode_init : decode 0x100000000#36 = .legal .init := by decide
theorem test_decode_upd : decode 0x2000000FF#36 = .legal (.upd 0xFF#8) := by decide
theorem test_decode_fin : decode 0x300000000#36 = .legal .fin := by decide
theorem test_decode_getst : decode 0x400000000#36 = .legal .getst := by decide
theorem test_decode_setst : decode 0x5FFFFFFFF#36 = .legal (.setst 0xFFFFFFFF#32) := by decide
theorem test_decode_tblrd : decode 0x6000000FF#36 = .legal (.tblrd 0xFF#8) := by decide

/-- The illegal words of 4.3 with cause 1. -/
theorem test_decode_cause1 :
    ([0x000000000#36, 0x0FFFFFFFF#36, 0x700000000#36, 0x800000000#36, 0x900000000#36, 0xA00000000#36, 0xB00000000#36,
      0xC00000000#36, 0xD00000000#36, 0xE00000000#36, 0xF00000000#36, 0xFFFFFFFFF#36, 0x700000061#36].all
      fun w => decode w == .illegal .reservedOpcode) = true := by decide

/-- The illegal words of 4.3 and 3.4 with cause 2. -/
theorem test_decode_cause2 :
    ([0x100000001#36, 0x180000000#36, 0x200000100#36, 0x2FFFFFF61#36, 0x300000001#36, 0x4FFFFFFFF#36, 0x600000100#36,
      0x6FFFFFF01#36].all fun w => decode w == .illegal .reservedOperandBits) = true := by decide

/-- The encoder on the words of the programs P1 to P3. -/
theorem test_encode :
    [encode .init, encode (.upd 0x61#8), encode .fin, encode .getst, encode (.setst 0x174841BC#32), encode (.tblrd 0x69#8)] =
      [0x100000000#36, 0x200000061#36, 0x300000000#36, 0x400000000#36, 0x5174841BC#36, 0x600000069#36] := by decide

/-- Each check of well-formedness refuses an ill-formed word: reserved opcode, format N operand, format B reserved bits. -/
theorem test_wellFormed_refuses :
    CmdWord.wellFormed 0x000000000#36 = false ∧ CmdWord.wellFormed 0x700000061#36 = false ∧
    CmdWord.wellFormed 0x100000001#36 = false ∧ CmdWord.wellFormed 0x300000001#36 = false ∧
    CmdWord.wellFormed 0x480000000#36 = false ∧ CmdWord.wellFormed 0x200000100#36 = false ∧
    CmdWord.wellFormed 0x680000000#36 = false := by decide

theorem test_wellFormed_admits :
    CmdWord.wellFormed 0x100000000#36 = true ∧ CmdWord.wellFormed 0x2000000FF#36 = true ∧
    CmdWord.wellFormed 0x300000000#36 = true ∧ CmdWord.wellFormed 0x400000000#36 = true ∧
    CmdWord.wellFormed 0x5FFFFFFFF#36 = true ∧ CmdWord.wellFormed 0x6000000FF#36 = true := by decide

/-- The row of each command is the row of spec/opcode_table.json with its mnemonic. -/
theorem test_rows :
    ([Instr.init, .upd 0#8, .fin, .getst, .setst 0#32, .tblrd 0#8].map fun i => i.row) = opcodeTable := by decide

theorem test_decodeTableWord :
    decodeTableWord 36 0x2000000FF = some (.upd 0xFF#8) ∧ decodeTableWord 40 0x100000000 = some .init ∧
    decodeTableWord 40 0x1100000000 = none := by decide

/-! ### The datapath (95_test_vectors.md 2 and 3) -/

/-- Entries 0 to 63 as section 2 lists them. -/
def specTable0 : List Word :=
  [0x00000000#32, 0x77073096#32, 0xEE0E612C#32, 0x990951BA#32, 0x076DC419#32, 0x706AF48F#32, 0xE963A535#32, 0x9E6495A3#32,
   0x0EDB8832#32, 0x79DCB8A4#32, 0xE0D5E91E#32, 0x97D2D988#32, 0x09B64C2B#32, 0x7EB17CBD#32, 0xE7B82D07#32, 0x90BF1D91#32,
   0x1DB71064#32, 0x6AB020F2#32, 0xF3B97148#32, 0x84BE41DE#32, 0x1ADAD47D#32, 0x6DDDE4EB#32, 0xF4D4B551#32, 0x83D385C7#32,
   0x136C9856#32, 0x646BA8C0#32, 0xFD62F97A#32, 0x8A65C9EC#32, 0x14015C4F#32, 0x63066CD9#32, 0xFA0F3D63#32, 0x8D080DF5#32,
   0x3B6E20C8#32, 0x4C69105E#32, 0xD56041E4#32, 0xA2677172#32, 0x3C03E4D1#32, 0x4B04D447#32, 0xD20D85FD#32, 0xA50AB56B#32,
   0x35B5A8FA#32, 0x42B2986C#32, 0xDBBBC9D6#32, 0xACBCF940#32, 0x32D86CE3#32, 0x45DF5C75#32, 0xDCD60DCF#32, 0xABD13D59#32,
   0x26D930AC#32, 0x51DE003A#32, 0xC8D75180#32, 0xBFD06116#32, 0x21B4F4B5#32, 0x56B3C423#32, 0xCFBA9599#32, 0xB8BDA50F#32,
   0x2802B89E#32, 0x5F058808#32, 0xC60CD9B2#32, 0xB10BE924#32, 0x2F6F7C87#32, 0x58684C11#32, 0xC1611DAB#32, 0xB6662D3D#32]

/-- Entries 64 to 127 as section 2 lists them. -/
def specTable1 : List Word :=
  [0x76DC4190#32, 0x01DB7106#32, 0x98D220BC#32, 0xEFD5102A#32, 0x71B18589#32, 0x06B6B51F#32, 0x9FBFE4A5#32, 0xE8B8D433#32,
   0x7807C9A2#32, 0x0F00F934#32, 0x9609A88E#32, 0xE10E9818#32, 0x7F6A0DBB#32, 0x086D3D2D#32, 0x91646C97#32, 0xE6635C01#32,
   0x6B6B51F4#32, 0x1C6C6162#32, 0x856530D8#32, 0xF262004E#32, 0x6C0695ED#32, 0x1B01A57B#32, 0x8208F4C1#32, 0xF50FC457#32,
   0x65B0D9C6#32, 0x12B7E950#32, 0x8BBEB8EA#32, 0xFCB9887C#32, 0x62DD1DDF#32, 0x15DA2D49#32, 0x8CD37CF3#32, 0xFBD44C65#32,
   0x4DB26158#32, 0x3AB551CE#32, 0xA3BC0074#32, 0xD4BB30E2#32, 0x4ADFA541#32, 0x3DD895D7#32, 0xA4D1C46D#32, 0xD3D6F4FB#32,
   0x4369E96A#32, 0x346ED9FC#32, 0xAD678846#32, 0xDA60B8D0#32, 0x44042D73#32, 0x33031DE5#32, 0xAA0A4C5F#32, 0xDD0D7CC9#32,
   0x5005713C#32, 0x270241AA#32, 0xBE0B1010#32, 0xC90C2086#32, 0x5768B525#32, 0x206F85B3#32, 0xB966D409#32, 0xCE61E49F#32,
   0x5EDEF90E#32, 0x29D9C998#32, 0xB0D09822#32, 0xC7D7A8B4#32, 0x59B33D17#32, 0x2EB40D81#32, 0xB7BD5C3B#32, 0xC0BA6CAD#32]

/-- Entries 128 to 191 as section 2 lists them. -/
def specTable2 : List Word :=
  [0xEDB88320#32, 0x9ABFB3B6#32, 0x03B6E20C#32, 0x74B1D29A#32, 0xEAD54739#32, 0x9DD277AF#32, 0x04DB2615#32, 0x73DC1683#32,
   0xE3630B12#32, 0x94643B84#32, 0x0D6D6A3E#32, 0x7A6A5AA8#32, 0xE40ECF0B#32, 0x9309FF9D#32, 0x0A00AE27#32, 0x7D079EB1#32,
   0xF00F9344#32, 0x8708A3D2#32, 0x1E01F268#32, 0x6906C2FE#32, 0xF762575D#32, 0x806567CB#32, 0x196C3671#32, 0x6E6B06E7#32,
   0xFED41B76#32, 0x89D32BE0#32, 0x10DA7A5A#32, 0x67DD4ACC#32, 0xF9B9DF6F#32, 0x8EBEEFF9#32, 0x17B7BE43#32, 0x60B08ED5#32,
   0xD6D6A3E8#32, 0xA1D1937E#32, 0x38D8C2C4#32, 0x4FDFF252#32, 0xD1BB67F1#32, 0xA6BC5767#32, 0x3FB506DD#32, 0x48B2364B#32,
   0xD80D2BDA#32, 0xAF0A1B4C#32, 0x36034AF6#32, 0x41047A60#32, 0xDF60EFC3#32, 0xA867DF55#32, 0x316E8EEF#32, 0x4669BE79#32,
   0xCB61B38C#32, 0xBC66831A#32, 0x256FD2A0#32, 0x5268E236#32, 0xCC0C7795#32, 0xBB0B4703#32, 0x220216B9#32, 0x5505262F#32,
   0xC5BA3BBE#32, 0xB2BD0B28#32, 0x2BB45A92#32, 0x5CB36A04#32, 0xC2D7FFA7#32, 0xB5D0CF31#32, 0x2CD99E8B#32, 0x5BDEAE1D#32]

/-- Entries 192 to 255 as section 2 lists them. -/
def specTable3 : List Word :=
  [0x9B64C2B0#32, 0xEC63F226#32, 0x756AA39C#32, 0x026D930A#32, 0x9C0906A9#32, 0xEB0E363F#32, 0x72076785#32, 0x05005713#32,
   0x95BF4A82#32, 0xE2B87A14#32, 0x7BB12BAE#32, 0x0CB61B38#32, 0x92D28E9B#32, 0xE5D5BE0D#32, 0x7CDCEFB7#32, 0x0BDBDF21#32,
   0x86D3D2D4#32, 0xF1D4E242#32, 0x68DDB3F8#32, 0x1FDA836E#32, 0x81BE16CD#32, 0xF6B9265B#32, 0x6FB077E1#32, 0x18B74777#32,
   0x88085AE6#32, 0xFF0F6A70#32, 0x66063BCA#32, 0x11010B5C#32, 0x8F659EFF#32, 0xF862AE69#32, 0x616BFFD3#32, 0x166CCF45#32,
   0xA00AE278#32, 0xD70DD2EE#32, 0x4E048354#32, 0x3903B3C2#32, 0xA7672661#32, 0xD06016F7#32, 0x4969474D#32, 0x3E6E77DB#32,
   0xAED16A4A#32, 0xD9D65ADC#32, 0x40DF0B66#32, 0x37D83BF0#32, 0xA9BCAE53#32, 0xDEBB9EC5#32, 0x47B2CF7F#32, 0x30B5FFE9#32,
   0xBDBDF21C#32, 0xCABAC28A#32, 0x53B39330#32, 0x24B4A3A6#32, 0xBAD03605#32, 0xCDD70693#32, 0x54DE5729#32, 0x23D967BF#32,
   0xB3667A2E#32, 0xC4614AB8#32, 0x5D681B02#32, 0x2A6F2B94#32, 0xB40BBE37#32, 0xC30C8EA1#32, 0x5A05DF1B#32, 0x2D02EF8D#32]

set_option maxRecDepth 20000 in
/-- The whole table of section 2. -/
theorem test_table : buildTable = specTable0 ++ specTable1 ++ specTable2 ++ specTable3 := by decide +kernel

/-- Section 3.1. -/
theorem test_g :
    [0x00000003#32, 0x80000000#32, 0x80000001#32, 0x7FFFFFFF#32, 0xDB710641#32, 0x12345678#32].map g =
      [0xEDB88321#32, 0x40000000#32, 0xADB88320#32, 0xD2477CDF#32, 0x80000000#32, 0x091A2B3C#32] := by decide

/-- Section 3.3, both forms. -/
theorem test_step :
    [stepTbl 0xDEADBEEF#32 0xA5#8, stepFb 0xDEADBEEF#32 0xA5#8, stepTbl 0x12345678#32 0x00#8, stepFb 0x80000000#32 0x00#8] =
      [0x96D70530#32, 0x96D70530#32, 0x5ECCCD58#32, 0x00800000#32] := by decide

/-- Section 3.3, the inverse. -/
theorem test_unstep :
    crcUnstep 0x174841BC#32 0x61#8 = 0xFFFFFFFF#32 ∧ tableUnstep 0x174841BC#32 0x9E#8 0x61#8 = 0xFFFFFFFF#32 := by decide

/-- Section 4.4. -/
theorem test_checksum :
    checksum [0x00#8] = 0xD202EF8D#32 ∧ checksum [0xFF#8, 0xFF#8, 0xFF#8, 0xFF#8] = 0xFFFFFFFF#32 ∧
    checksum [0x61#8, 0x62#8, 0x63#8] = 0x352441C2#32 := by decide

/-! ### The commands (95_test_vectors.md 3.4, 4.1, 4.2, 4.3): one step each -/

theorem test_init : issued 0x340BC6D9#32 0x100000000#36 = some (0xFFFFFFFF#32, [⟨false, 0xFFFFFFFF#32⟩]) := by decide
theorem test_upd : issued 0x651F2550#32 0x200000039#36 = some (0x340BC6D9#32, [⟨false, 0x340BC6D9#32⟩]) := by decide
theorem test_upd_low : issued 0x12345678#32 0x200000078#36 = some (0x00123456#32, [⟨false, 0x00123456#32⟩]) := by decide
theorem test_fin : issued 0x340BC6D9#32 0x300000000#36 = some (0x340BC6D9#32, [⟨false, 0xCBF43926#32⟩]) := by decide
theorem test_getst : issued 0x174841BC#32 0x400000000#36 = some (0x174841BC#32, [⟨false, 0x174841BC#32⟩]) := by decide
theorem test_setst : issued 0xFFFFFFFF#32 0x500000001#36 = some (0x00000001#32, [⟨false, 0x00000001#32⟩]) := by decide
theorem test_tblrd : issued 0x174841BC#32 0x60000007F#36 = some (0x174841BC#32, [⟨false, 0xC0BA6CAD#32⟩]) := by decide
theorem test_illegal1 : issued 0x174841BC#32 0xF12345678#36 = some (0x174841BC#32, [⟨true, 0x00000001#32⟩]) := by decide
theorem test_illegal2 : issued 0x174841BC#32 0x200000162#36 = some (0x174841BC#32, [⟨true, 0x00000002#32⟩]) := by decide

/-- The first instruction after reset, placed by `withFetchWord` (4.1). -/
theorem test_fetch_word :
    (nextOf (step (State.reset.withFetchWord 40 0x200000061))).map (fun s => (s.crc, s.delivered)) =
      some (0x174841BC#32, [⟨false, 0x174841BC#32⟩]) := by decide

/-- P4, as the sequential reading: illegal words in the middle of a message. -/
theorem test_seq_P4 :
    seqRsps 0xFFFFFFFF#32 [0x100000000#36, 0x200000061#36, 0x000000000#36, 0x200000162#36, 0xF12345678#36, 0x400000000#36,
        0x200000062#36, 0x300000000#36] =
      [⟨false, 0xFFFFFFFF#32⟩, ⟨false, 0x174841BC#32⟩, ⟨true, 1#32⟩, ⟨true, 2#32⟩, ⟨true, 1#32⟩, ⟨false, 0x174841BC#32⟩,
        ⟨false, 0x617CB792#32⟩, ⟨false, 0x9E83486D#32⟩] := by decide

/-! ### The ports (R33, R34, R94, R99) -/

/-- An edge at which nothing stands on the ports. -/
def quietEdge : Edge :=
  { inp := { rst := false, cmdValid := false, cmdOp := 0#4, cmdArg := 0#32, rspReady := false }
    stall := false, busy := false, hold := false }

/-- An edge with `rst = 1` while a word is presented. -/
def resetEdge : Edge := { quietEdge with inp := { quietEdge.inp with rst := true, cmdValid := true, cmdOp := 4#4 } }

/-- The edge that issues `GETST`, with the core stalling. -/
def stalledEdge : Edge := { Edge.issue 0x400000000#36 with stall := true }

/-- A word is not accepted while the core stalls, and stays on offer (R33). -/
theorem test_stall_offers :
    (nextOf (step (start 7#32 [stalledEdge]))).map (fun s => (s.accepted, s.offered)) =
      some ([], some 0x400000000#36) := by decide

/-- A word is not accepted before the table is complete (R99). -/
theorem test_fill_not_ready :
    (nextOf (step { start 7#32 [Edge.issue 0x400000000#36] with fill := 2 })).map (fun s => (s.accepted, s.fill)) =
      some ([], 1) := by decide

/-- A response that the host does not take stays (R34). -/
theorem test_response_waits :
    (nextOf (step { start 7#32 [quietEdge] with rspQueue := [⟨false, 7#32⟩] })).map
      (fun s => (s.rspQueue, s.rspShown, s.delivered)) = some ([⟨false, 7#32⟩], true, []) := by decide

/-- Reset: `CRC` is the seed, what was in flight is gone (R95, R96). -/
theorem test_reset_edge :
    (nextOf (step { start 7#32 [resetEdge] with cmdQueue := [0x300000000#36], rspQueue := [⟨false, 7#32⟩] })).map
      (fun s => (s.crc, s.cmdQueue, s.rspQueue, s.rspShown)) = some (0xFFFFFFFF#32, [], [], false) := by decide

/-- A word presented at a reset edge is on offer after it (R33: the host holds it until it is accepted). -/
theorem test_reset_edge_offers :
    (nextOf (step (start 7#32 [resetEdge, quietEdge]))).map (fun s => (s.accepted, s.offered, s.edges)) =
      some ([], some 0x400000000#36, [quietEdge]) := by decide

/-- The host withdraws a word on offer: no move (U6). -/
theorem test_withdrawn_offer :
    step { start 7#32 [quietEdge] with offered := some 0x400000000#36 } = .refused .hostChangedOffer := rfl

/-- No edge listed: nothing changes (R93). -/
theorem test_idle : step (start 7#32 []) = .next (start 7#32 []) := rfl

/-- The 33 bits of a response, `rsp_err` on top (R44). -/
theorem test_response_bits : Response.bits ⟨true, 2#32⟩ = 0x100000002#33 ∧ Response.bits ⟨false, 1#32⟩ = 0x000000001#33 := by
  decide

/-! ### The text syntax (R45) and the rendering (R79) -/

theorem test_text_upd : readLine "UPD 0x61 ; A byte 1".toList = some (.command (.upd 0x61#8)) := by decide
theorem test_text_setst : readLine "SETST 0x174841BC".toList = some (.command (.setst 0x174841BC#32)) := by decide
theorem test_text_word : readLine ".WORD 0x200000162".toList = some (.word 0x200000162#36) := by decide
theorem test_text_checksum : (readLine "CHECKSUM [0x31, 50]".toList).map assembleLine =
    some [0x100000000#36, 0x200000031#36, 0x200000032#36, 0x300000000#36] := by decide
theorem test_text_range : readLine "UPD 256".toList = none ∧ readLine "TBLRD 0x100".toList = none := by decide
theorem test_text_quotes :
    readLine (['U', 'P', 'D', ' ', quoteChar, 'a', quoteChar]) = some (.command (.upd 0x61#8)) ∧
    readLine (['U', 'P', 'D', 'A', 'T', 'E', ' ', doubleQuoteChar, 'a', 'b', doubleQuoteChar]) =
      some (.update [0x61#8, 0x62#8]) := by decide
theorem test_text_assemble : assemble "INIT\nUPD 97\n\nFIN".toList =
    some [0x100000000#36, 0x200000061#36, 0x300000000#36] := by decide
/-- 4.4, the column `%08X`. -/
theorem test_render : render08X 0x015F0201#32 = "015F0201".toList ∧ render08X 0xE8B7BE43#32 = "E8B7BE43".toList := by decide

/-! ### Witnesses: inputs that meet the hypotheses of the statements -/

theorem witness_InitWritesSeed : (0x80000000#32 : Word) ≠ 0#32 ∧
    nextOf (runWord (cmdWord 0x1#4 0x80000000#32) State.reset) =
      some { State.reset with rspQueue := [⟨true, 2#32⟩] } := by decide

theorem witness_UpdStepsTheAccumulator : (1#24 : BitVec 24) ≠ 0#24 ∧ (start 0#32 []).crc = 0#32 ∧
    (start 0xFFFFFFFF#32 []).crc = 0xFFFFFFFF#32 := by decide

theorem witness_FinRespondsComplement : (1#32 : Word) ≠ 0#32 := by decide

/-- The hypotheses about the words between: `TBLRD`, an illegal word, `FIN`; and the writing command `UPD`. -/
theorem witness_GetstRespondsRawState : (0xFFFFFFFF#32 : Word) ≠ 0#32 ∧
    (∀ w ∈ [0x600000001#36, 0x000000000#36, 0x300000000#36],
      decode w ≠ .legal .init ∧ (∀ b, decode w ≠ .legal (.upd b)) ∧ ∀ v, decode w ≠ .legal (.setst v)) ∧
    ∃ b, Instr.upd 0x61#8 = .upd b := by
  refine ⟨by decide, fun w hw => ?_, ⟨_, rfl⟩⟩
  simp only [List.mem_cons, List.not_mem_nil, or_false] at hw
  have h : decode w = .legal (.tblrd 1#8) ∨ decode w = .illegal .reservedOpcode ∨ decode w = .legal .fin := by
    obtain rfl | rfl | rfl := hw <;> decide
  obtain h | h | h := h <;> simp [h]

theorem witness_TblrdRespondsEntry : (0xFFFFFF#24 : BitVec 24) ≠ 0#24 := by decide

/-- One input for each clause: an illegal word, a reset edge, each side of the commands, two values of `CRC`, a step that changes
`CRC`, and a waiting response. -/
theorem witness_CrcWritersAreTheTable : CmdWord.wellFormed 0x200000162#36 = false ∧
    (start 7#32 [resetEdge]).edges = [resetEdge] ∧ resetEdge.inp.rst = true ∧ (∃ v, Instr.setst 1#32 = .setst v) ∧
    (∃ b, Instr.upd 0x61#8 = .upd b) ∧ (start 7#32 []).crc ≠ (start 8#32 []).crc ∧
    (∃ t, step (start 7#32 [Edge.issue 0x100000000#36]) = .next t ∧
      t.crc ≠ (start 7#32 [Edge.issue 0x100000000#36]).crc) ∧
    { start 7#32 [] with rspQueue := [⟨false, 7#32⟩] }.rspQueue ≠ [] :=
  ⟨by decide, rfl, rfl, ⟨_, rfl⟩, ⟨_, rfl⟩, by decide, ⟨_, rfl, by decide⟩, by decide⟩

theorem witness_CommandFrame : ∃ t, exec (.upd 0x61#8) (start 7#32 []) = .next t := ⟨_, rfl⟩

theorem witness_WellFormedWordsNeverRaise : CmdWord.wellFormed 0x500000000#36 = true := by decide

theorem witness_IllegalWordEffect : decode 0x0FFFFFFFF#36 = .illegal .reservedOpcode ∧
    decode 0x100000001#36 = .illegal .reservedOperandBits := by decide

theorem witness_IllegalWordsAreTheseWords : CmdWord.wellFormed 0x600000100#36 = false := by decide

theorem witness_LegalWordsAreEncodings : decode 0x600000080#36 = .legal (.tblrd 0x80#8) := by decide

/-- A row of the table that selects a word (and no second row does), and a word that is illegal. -/
theorem witness_DecoderIsTheMatchTable : Instr.fin.row ∈ opcodeTable ∧ Instr.fin.row.selects 0x300000000#36 = true ∧
    decode 0x700000000#36 = .illegal .reservedOpcode ∧ decode 0x2000000FF#36 = .legal (.upd 0xFF#8) ∧
    decode 0x580000000#36 = .legal (.setst 0x80000000#32) ∧ decode 0x600000000#36 = .legal (.tblrd 0#8) := by decide

theorem witness_OneBitStepBits : (0 : Nat) ≤ 30 ∧ (30 : Nat) ≤ 30 := by decide

theorem witness_TableFacts : tblRead 3#8 = tblRead (1#8 ^^^ 2#8) ∧
    (tblRead 3#8).extractLsb' 24 8 = (tblRead (1#8 ^^^ 2#8)).extractLsb' 24 8 := by decide

theorem witness_StepIsBijective : (tblRead 0x9E#8).extractLsb' 24 8 = (0x174841BC#32).extractLsb' 24 8 := by decide

theorem witness_UpdatePseudoCommand : (1 : Nat) < [0x61#8, 0x62#8].length ∧
    ∀ w ∈ [0x200000061#36], decode w ≠ .legal .init ∧ ∀ v, decode w ≠ .legal (.setst v) := by
  refine ⟨by decide, fun w hw => ?_⟩
  have h : decode w = .legal (.upd 0x61#8) := by
    rw [List.mem_singleton.1 hw]; decide
  simp [h]

theorem witness_SaveAndRestore : update seed [0x61#8] = 0x174841BC#32 := by decide

/-- A legal and an illegal word accepted into an empty queue and executed at the same edge. -/
theorem witness_StepRunsDecodedInstruction :
    ([0x200000061#36, 0x000000000#36].all fun w =>
      (start 7#32 [Edge.issue w]).edges == [Edge.issue w] && (Edge.issue w).inp.rst == false &&
      (Edge.issue w).busy == false && offerKept (Edge.issue w) (start 7#32 [Edge.issue w]) == true &&
      (acceptPhase (Edge.issue w) (start 7#32 [])).cmdQueue == [w]) = true ∧
    decode 0x200000061#36 = .legal (.upd 0x61#8) ∧ decode 0x000000000#36 = .illegal .reservedOpcode := by decide

theorem witness_FetchedWordRunsNext : decodeTableWord 36 0x5174841BC = some (.setst 0x174841BC#32) := by decide

theorem witness_ResetEdgeWrites : (start 7#32 [resetEdge, quietEdge]).edges = [resetEdge, quietEdge] ∧
    resetEdge.inp.rst = true ∧ (start 7#32 []).Quiet := ⟨rfl, rfl, rfl, rfl, rfl, rfl, rfl⟩

theorem witness_NothingMovesInReset : ∃ t, step (start 7#32 [resetEdge]) = .next t ∧ resetEdge.inp.rst = true :=
  ⟨_, rfl, rfl⟩

theorem witness_ResetRestoresInvariant : ∃ t u, step (start 7#32 [resetEdge, quietEdge]) = .next t ∧ Reaches t 0 u :=
  ⟨_, _, rfl, rfl⟩

/-- A state that meets all three invariants with a command queued, a response waiting and shown. -/
def busyState : State :=
  { State.reset with
    cmdQueue := [0x300000000#36], rspQueue := [⟨false, 0xFFFFFFFF#32⟩], rspShown := true
    accepted := [0x400000000#36, 0x300000000#36], edges := [Edge.drain, Edge.drain] }

theorem witness_StepKeepsSequentialReading : busyState.SeqInv ∧ ∃ t, step busyState = .next t :=
  ⟨⟨by decide, by decide⟩, _, rfl⟩

theorem witness_StepKeepsResponseCount : busyState.CountInv ∧ ∃ t, step busyState = .next t := ⟨rfl, _, rfl⟩

theorem witness_StepKeepsPortInv : busyState.PortInv ∧ ∃ t, step busyState = .next t :=
  ⟨⟨by decide, Nat.zero_le _⟩, _, rfl⟩

theorem witness_AcceptanceRule : ∃ t, step (start 7#32 [stalledEdge]) = .next t ∧ stalledEdge.inp.rst = false ∧
    (start 7#32 [Edge.drain]).fill = 0 ∧ Edge.drain.stall = false ∧
    (portOut Edge.drain (start 7#32 [Edge.drain])).cmdReady = true := ⟨_, rfl, rfl, rfl, rfl, rfl⟩

theorem witness_DeliveryRule : ∃ t, step { busyState with edges := [quietEdge, Edge.drain] } = .next t ∧
    quietEdge.inp.rst = false ∧ quietEdge.inp.rspReady = false ∧ Edge.drain.inp.rst = false ∧
    (portOut quietEdge { busyState with edges := [quietEdge, Edge.drain] }).rsp = some ⟨false, 0xFFFFFFFF#32⟩ :=
  ⟨_, rfl, rfl, rfl, rfl, rfl⟩

theorem witness_StepStopsOnlyOnBrokenHold :
    BreaksHold quietEdge { start 7#32 [quietEdge] with offered := some 0x400000000#36 } ∧
    ¬ ∃ e es, (start 7#32 []).edges = e :: es ∧ BreaksHold e (start 7#32 []) :=
  ⟨⟨rfl, _, rfl, by decide⟩, fun ⟨_, _, h, _⟩ => nomatch h⟩

theorem witness_OnlyCommandsChangeCrc : ∃ t, step (start 7#32 [Edge.issue 0x100000000#36]) = .next t ∧
    t.crc ≠ (start 7#32 [Edge.issue 0x100000000#36]).crc := ⟨_, rfl, by decide⟩

theorem witness_NothingAcceptedDuringFill : 1 ≤ { start 7#32 [stalledEdge] with fill := 2 }.fill ∧
    (∀ e ∈ { start 7#32 [stalledEdge] with fill := 2 }.edges.take 1, e.inp.rst = false) ∧
    ∃ t, Reaches { start 7#32 [stalledEdge] with fill := 2 } 1 t :=
  ⟨by decide, by decide, _, rfl⟩

theorem witness_RunOfIssuedWords : (start 7#32 ([0x400000000#36].map Edge.issue ++ [quietEdge])).Quiet :=
  ⟨rfl, rfl, rfl, rfl, rfl⟩

theorem witness_ChecksumDependsOnBytesOnly :
    (start 7#32 ((wordsOf (checksumInstrs [0x61#8])).map Edge.issue ++ [])).Quiet := ⟨rfl, rfl, rfl, rfl, rfl⟩

theorem witness_DeliveredMatchByOrder : busyState.SeqInv ∧ ∃ t, Reaches busyState 1 t :=
  ⟨⟨by decide, by decide⟩, _, rfl⟩

/-- One run issues `GETST` at once, the other after a stall and with the execution and the response delayed. -/
theorem witness_TimingAffectsNoValue :
    State.SeqInv (start seed [Edge.issue 0x400000000#36]) ∧
    State.SeqInv (start seed [stalledEdge, { Edge.issue 0x400000000#36 with busy := true }, Edge.drain]) ∧
    ∃ t t', Reaches (start seed [Edge.issue 0x400000000#36]) 1 t ∧
      Reaches (start seed [stalledEdge, { Edge.issue 0x400000000#36 with busy := true }, Edge.drain]) 3 t' ∧
      t.accepted = t'.accepted ∧ t.cmdQueue = [] ∧ t'.cmdQueue = [] ∧ t.rspQueue = [] ∧ t'.rspQueue = [] :=
  ⟨⟨rfl, rfl⟩, ⟨rfl, rfl⟩, _, _, rfl, rfl, rfl, rfl, rfl, rfl, rfl⟩

theorem witness_EveryCommandIsAnswered : busyState.offered = none ∧
    busyState.cmdQueue.length + busyState.rspQueue.length ≤ 2 ∧
    busyState.edges = List.replicate 2 Edge.drain ++ [] := ⟨rfl, by decide, rfl⟩

/-- `busyState` with a word on offer and one edge of the table fill left, and the edges that end with everything answered. -/
def offeringState : State :=
  { busyState with
    fill := 1, offered := some 0x400000000#36
    edges := List.replicate 2 (Edge.issue 0x400000000#36) ++ List.replicate 2 Edge.drain ++ [quietEdge] }

theorem witness_EveryCommandIsAnswered_offered : offeringState.offered = some 0x400000000#36 ∧
    offeringState.cmdQueue.length + offeringState.rspQueue.length ≤ 2 ∧
    offeringState.edges = List.replicate (offeringState.fill + 1) (Edge.issue 0x400000000#36) ++
      List.replicate 2 Edge.drain ++ [quietEdge] := ⟨rfl, by decide, rfl⟩

/-- A word presented and not accepted, at a reset edge and at a stalled edge, which the host then withdraws; an accepted word; and
no edge listed. -/
theorem witness_EdgeLeavesOfferAndEdges :
    (∀ e ∈ [resetEdge, stalledEdge],
      (∃ t, step (start 7#32 [e, quietEdge]) = .next t) ∧ e.inp.cmdValid = true ∧
      (portOut e (start 7#32 [e, quietEdge])).cmdReady = false) ∧
    quietEdge.inp.rst = false ∧ quietEdge.inp.cmdValid = false ∧
    (∃ t, step (start 7#32 [Edge.issue 0x400000000#36]) = .next t) ∧
    (portOut (Edge.issue 0x400000000#36) (start 7#32 [Edge.issue 0x400000000#36])).cmdReady = true ∧
    (start 7#32 []).edges = [] := by
  refine ⟨fun e he => ?_, rfl, rfl, ⟨_, rfl⟩, rfl, rfl⟩
  simp only [List.mem_cons, List.not_mem_nil, or_false] at he
  obtain rfl | rfl := he <;> exact ⟨⟨_, rfl⟩, rfl, rfl⟩

end Sys2Proof.Tests
end

namespace Sys2Proof

/-! ### The legal words are the encodings, and each selects its row of the opcode table (R41) -/

/-- A format B operand whose reserved bits are zero is that of its byte (R39). -/
theorem eq_argOfByte_of_high_zero (arg : Word) (h : arg.extractLsb' 8 24 = 0#24) :
    arg = argOfByte (arg.extractLsb' 0 8) := by
  rw [argOfByte, ← h, parts_append]

/-- The only word that decodes to a command is the one it assembles to (R41, R45). -/
theorem eq_encode_of_decode_legal (w : CmdWord) (i : Instr) (h : decode w = .legal i) : w = encode i := by
  rw [← cmdWord_fields w] at h ⊢
  generalize opField w = op at h ⊢
  generalize argField w = arg at h ⊢
  rw [decode_cmdWord] at h
  split_ifs at h with hOp hArg hOp hHigh hOp hArg hOp hArg hOp hOp hHigh <;> cases h
  · rw [hOp, hArg, encode]
  · rw [hOp, encode, ← eq_argOfByte_of_high_zero arg hHigh]
  · rw [hOp, hArg, encode]
  · rw [hOp, hArg, encode]
  · rw [hOp, encode]
  · rw [hOp, encode, ← eq_argOfByte_of_high_zero arg hHigh]

/-- Masking a word is masking its two fields (R36, R41). -/
theorem cmdWord_and (op mop : BitVec 4) (arg marg : Word) :
    cmdWord op arg &&& cmdWord mop marg = cmdWord (op &&& mop) (arg &&& marg) := BitVec.and_append

/-- The mask of format B keeps `op` and clears the byte (R41). -/
theorem argOfByte_and_mask (b : Byte) : argOfByte b &&& 0xFFFFFF00#32 = 0#32 := by
  change (0#24 ++ b) &&& (0xFFFFFF#24 ++ 0#8) = 0#24 ++ 0#8
  rw [BitVec.and_append, BitVec.zero_and, BitVec.and_zero]

/-- The word of a command selects the command's row (R41). -/
theorem row_selects_encode (i : Instr) : i.row.selects (encode i) = true := by
  cases i with
  | init => decide
  | upd b =>
    have h := cmdWord_and 0x2#4 0xF#4 (argOfByte b) 0xFFFFFF00#32
    rw [argOfByte_and_mask] at h
    exact beq_iff_eq.2 h
  | fin => decide
  | getst => decide
  | setst v =>
    have h := cmdWord_and 0x5#4 0xF#4 v 0#32
    rw [BitVec.and_zero] at h
    exact beq_iff_eq.2 h
  | tblrd k =>
    have h := cmdWord_and 0x6#4 0xF#4 (argOfByte k) 0xFFFFFF00#32
    rw [argOfByte_and_mask] at h
    exact beq_iff_eq.2 h

/-- Every command has its row in the opcode table (R37). -/
theorem row_mem_opcodeTable (i : Instr) : i.row ∈ opcodeTable := by
  cases i with
  | init => exact Laws.InTable.init.1
  | upd b => exact (Laws.InTable.upd b).1
  | fin => exact Laws.InTable.fin.1
  | getst => exact Laws.InTable.getst.1
  | setst v => exact (Laws.InTable.setst v).1
  | tblrd k => exact (Laws.InTable.tblrd k).1

/-- A word that decodes to a command is well formed (R41, R81). -/
theorem wellFormed_of_decode_legal (w : CmdWord) (i : Instr) (h : decode w = .legal i) : w.wellFormed = true :=
  List.any_eq_true.2 ⟨i.row, row_mem_opcodeTable i, eq_encode_of_decode_legal w i h ▸ row_selects_encode i⟩

/-- A word that no row selects is illegal (R41, R82). -/
theorem decode_illegal_of_not_wellFormed (w : CmdWord) (h : w.wellFormed = false) : ∃ k, decode w = .illegal k := by
  cases hd : decode w with
  | illegal k => exact ⟨k, rfl⟩
  | legal i => rw [wellFormed_of_decode_legal w i hd] at h; cases h

end Sys2Proof

namespace Sys2Proof.Machine

/-! ### The one-bit and the one-byte step: linear, injective, and one function in both forms (R49 to R56) -/

theorem g_of_low_zero (v : Word) (h : v.getLsbD 0 = false) : g v = v >>> 1 := by
  rw [g, h]; rfl

theorem g_of_low_one (v : Word) (h : v.getLsbD 0 = true) : g v = (v >>> 1) ^^^ poly := by
  rw [g, h]; rfl

/-- The one-bit step is linear: two feedbacks cancel (R51). -/
theorem g_xor (a b : Word) : g (a ^^^ b) = g a ^^^ g b := by
  have hab : (a ^^^ b).getLsbD 0 = (a.getLsbD 0 ^^ b.getLsbD 0) := BitVec.getLsbD_xor
  cases ha : a.getLsbD 0 <;> cases hb : b.getLsbD 0 <;> rw [ha, hb] at hab
  case false.false =>
    rw [g_of_low_zero _ hab, g_of_low_zero a ha, g_of_low_zero b hb, BitVec.ushiftRight_xor_distrib]
  case false.true =>
    rw [g_of_low_one _ hab, g_of_low_zero a ha, g_of_low_one b hb, BitVec.ushiftRight_xor_distrib, BitVec.xor_assoc]
  case true.false =>
    rw [g_of_low_one _ hab, g_of_low_one a ha, g_of_low_zero b hb, BitVec.ushiftRight_xor_distrib]
    ac_rfl
  case true.true =>
    rw [g_of_low_zero _ hab, g_of_low_one a ha, g_of_low_one b hb, BitVec.ushiftRight_xor_distrib, BitVec.xor_assoc,
      BitVec.xor_comm poly, BitVec.xor_assoc, BitVec.xor_self, BitVec.xor_zero]

theorem gIter_xor (n : Nat) (a b : Word) : gIter n (a ^^^ b) = gIter n a ^^^ gIter n b := by
  induction n generalizing a b with
  | zero => rfl
  | succ n ih => rw [gIter_succ, g_xor, ih, gIter_succ, gIter_succ]

/-- No feedback while the bits shifted out are zero (R53). -/
theorem gIter_of_low_zero (n : Nat) (v : Word) (h : ∀ k < n, v.getLsbD k = false) : gIter n v = v >>> n := by
  induction n generalizing v with
  | zero => simp
  | succ n ih =>
    have hlow : ∀ k < n, (v >>> 1).getLsbD k = false := fun k hk => by
      rw [BitVec.getLsbD_ushiftRight]
      exact h (1 + k) (by omega)
    rw [gIter_succ, g_of_low_zero v (h 0 n.succ_pos), ih _ hlow, ← BitVec.shiftRight_add, Nat.add_comm]

theorem zext32_shift_eight (b : Byte) : zext32 b >>> 8 = 0#32 := by
  refine BitVec.eq_of_getLsbD_eq fun k hk => ?_
  simp [zext32]

/-- Clearing the low byte of a word clears its bits 7 to 0. -/
theorem getLsbD_xor_lowByte (x : Word) (k : Nat) (hk : k < 8) : (x ^^^ zext32 (lowByte x)).getLsbD k = false := by
  simp [zext32, lowByte, hk, show k < 32 by omega]

/-- Eight one-bit steps are one table step: the upper bytes only shift, the low byte is what the table entry of that
byte answers (R53, R54). -/
theorem gIter_eight (x : Word) : gIter 8 x = (x >>> 8) ^^^ tblEntry (lowByte x) := by
  have hx : x = (x ^^^ zext32 (lowByte x)) ^^^ zext32 (lowByte x) := by
    rw [BitVec.xor_assoc, BitVec.xor_self, BitVec.xor_zero]
  calc gIter 8 x
      = gIter 8 (x ^^^ zext32 (lowByte x)) ^^^ gIter 8 (zext32 (lowByte x)) := by rw [← gIter_xor, ← hx]
    _ = (x ^^^ zext32 (lowByte x)) >>> 8 ^^^ tblEntry (lowByte x) := by
        rw [gIter_of_low_zero 8 _ (getLsbD_xor_lowByte x), tblEntry]
    _ = (x >>> 8) ^^^ tblEntry (lowByte x) := by
        rw [BitVec.ushiftRight_xor_distrib, zext32_shift_eight, BitVec.xor_zero]

/-- The table form and the feedback form of the one-byte step are one function (R54). -/
theorem crcStep_eq_stepFb (s : Word) (b : Byte) : crcStep s b = stepFb s b := by
  rw [stepFb, gIter_eight, BitVec.ushiftRight_xor_distrib, zext32_shift_eight, BitVec.xor_zero]
  rfl

/-- A word is its upper 31 bits, shifted back, beside its bit 0. -/
theorem shift_append_low (v : Word) :
    ((v >>> 1).extractLsb' 0 31 ++ BitVec.ofBool (v.getLsbD 0) : Word) = v := by
  refine BitVec.eq_of_getLsbD_eq fun k hk => ?_
  rw [BitVec.getLsbD_append]
  cases k with
  | zero => simp
  | succ k => simp [show k < 31 by omega, Nat.add_comm 1 k]

/-- `ginv` undoes the one-bit step: bit 31 of `g v` says whether `poly` was added (R56). -/
theorem ginv_g (v : Word) : ginv (g v) = v := by
  have htop : (v >>> 1).getLsbD 31 = false := by simp
  have happ := shift_append_low v
  cases h : v.getLsbD 0 with
  | false =>
    rw [h] at happ
    rw [g_of_low_zero v h, ginv, htop]
    exact happ
  | true =>
    have hpoly : ((v >>> 1) ^^^ poly).getLsbD 31 = true := by rw [BitVec.getLsbD_xor, htop]; decide
    rw [h] at happ
    rw [g_of_low_one v h, ginv, hpoly, if_pos rfl, BitVec.xor_assoc, BitVec.xor_self, BitVec.xor_zero]
    exact happ

theorem g_injective : Function.Injective g := Function.LeftInverse.injective ginv_g

theorem gIter_injective (n : Nat) : Function.Injective (gIter n) := by
  induction n with
  | zero => exact Function.injective_id
  | succ n ih => exact ih.comp g_injective

/-- Different raw states stay different after a byte (R56). -/
theorem crcStep_injective (b : Byte) : Function.Injective fun s => crcStep s b := fun s s' h => by
  simp only [crcStep_eq_stepFb, stepFb] at h
  exact (BitVec.xor_left_inj _).1 (gIter_injective 8 h)

/-! ### What reads and what writes `CRC` (R11) -/

/-- The commands that R11 lists as writers of `CRC`. -/
def WritesCrc (i : Instr) : Prop := i = .init ∨ (∃ b, i = .upd b) ∨ ∃ v, i = .setst v

/-- A command that leaves another `CRC` is one of the listed writers. -/
theorem writesCrc_of_crcAfter_ne (c : Word) (i : Instr) (h : crcAfter c i ≠ c) : WritesCrc i := by
  cases i with
  | init => exact .inl rfl
  | upd b => exact .inr (.inl ⟨b, rfl⟩)
  | setst v => exact .inr (.inr ⟨v, rfl⟩)
  | fin => exact absurd rfl h
  | getst => exact absurd rfl h
  | tblrd k => exact absurd rfl h

/-- A word that leaves another `CRC` is legal and its command is one of the listed writers. -/
theorem legal_writer_of_seqWord_ne (c : Word) (w : CmdWord) (h : (seqWord c w).1 ≠ c) :
    ∃ i, decode w = .legal i ∧ WritesCrc i := by
  cases hd : decode w with
  | legal i =>
    rw [seqWord_of_legal c w i hd] at h
    exact ⟨i, rfl, writesCrc_of_crcAfter_ne c i h⟩
  | illegal k =>
    rw [seqWord_of_illegal c w k hd] at h
    exact absurd rfl h

/-- `UPD`, `FIN` and `GETST` answer injectively in `CRC`: they read it (R11, R56). -/
theorem dataOf_injective_of_reader (i : Instr) (hi : (∃ b, i = .upd b) ∨ i = .fin ∨ i = .getst) :
    Function.Injective fun c => dataOf c i := by
  obtain ⟨b, rfl⟩ | rfl | rfl := hi
  · exact crcStep_injective b
  · exact fun c c' h => (BitVec.xor_left_inj _).1 h
  · exact Function.injective_id

/-- The answer of `INIT`, `SETST` and `TBLRD` is one value for every `CRC`: they do not read it (R11). -/
theorem dataOf_const_of_nonReader (i : Instr) (hi : i = .init ∨ (∃ v, i = .setst v) ∨ ∃ k, i = .tblrd k) :
    ∃ d, ∀ c, dataOf c i = d := by
  obtain rfl | ⟨v, rfl⟩ | ⟨k, rfl⟩ := hi
  · exact ⟨_, fun _ => rfl⟩
  · exact ⟨_, fun _ => rfl⟩
  · exact ⟨_, fun _ => rfl⟩

/-- Everything an ill-formed word can do: it answers its cause and leaves the rest (R82). -/
theorem runWord_of_not_wellFormed (w : CmdWord) (h : w.wellFormed = false) :
    ∃ k : Cause, ∀ s, runWord w s = .next { s with rspQueue := s.rspQueue ++ [⟨true, k.code⟩] } := by
  obtain ⟨k, hk⟩ := decode_illegal_of_not_wellFormed w h
  exact ⟨k, fun s => by rw [runWord_eq, seqWord_of_illegal _ w k hk]⟩

/-- A reset edge is what `applyReset` writes (R95). -/
theorem step_of_reset (s : State) (e : Edge) (es : List Edge) (he : s.edges = e :: es) (hr : e.inp.rst = true) :
    step s = .next (applyReset e.inp.offer { s with edges := es }) := by
  simp [step, he, onEdge, hr]

/-- An edge without reset at which the host keeps its offer is the three phases (R33, R34, R35). -/
theorem step_of_phases (s m : State) (e : Edge) (es : List Edge) (he : s.edges = e :: es) (hr : e.inp.rst = false)
    (hk : offerKept e s = true) (hm : executePhase e (acceptPhase e { s with edges := es }) = .next m) :
    step s = .next (deliverPhase e m) := by
  have hk' : offerKept e { s with edges := es } = true := hk
  simp [step, he, onEdge, hr, hk', hm]

/-- The word at the head of the queue after the accept phase is the oldest queued one or the one on the port. -/
theorem head?_append_word_of_acceptPhase (e : Edge) (s : State) (w : CmdWord) (ws : List CmdWord)
    (h : (acceptPhase e s).cmdQueue = w :: ws) : (s.cmdQueue ++ [e.inp.word]).head? = some w := by
  obtain ⟨-, ha⟩ | ⟨-, ha⟩ := acceptPhase_cases e s <;> rw [ha] at h
  · exact congrArg List.head? h
  · rw [show s.cmdQueue = w :: ws from h]; rfl

/-- A step that changes `CRC` is a reset edge or executes one of the listed writers (R11, R92). -/
theorem reset_or_writer_of_step_crc_ne (s t : State) (h : step s = .next t) (hne : t.crc ≠ s.crc) :
    ∃ (e : Edge) (es : List Edge), s.edges = e :: es ∧
      (e.inp.rst = true ∨ ∃ (w : CmdWord) (i : Instr),
        (s.cmdQueue ++ [e.inp.word]).head? = some w ∧ decode w = .legal i ∧ WritesCrc i) := by
  obtain ⟨-, hs⟩ | ⟨e, es, he, hr, -⟩ | ⟨e, es, m, he, -, -, hm, hs⟩ | ⟨e, es, -, -, -, hs⟩ := step_cases s
  · obtain rfl := Host.Outcome.next.inj (hs.symm.trans h)
    exact absurd rfl hne
  · exact ⟨e, es, he, .inl hr⟩
  · refine ⟨e, es, he, .inr ?_⟩
    obtain rfl := Host.Outcome.next.inj (hs.symm.trans h)
    rw [(deliverPhase_frame e m).1] at hne
    have hacc := (acceptPhase_frame e { s with edges := es }).1
    obtain ⟨hx, -⟩ | ⟨w, ws, -, hq, hx⟩ := executePhase_cases e (acceptPhase e { s with edges := es }) <;>
      obtain rfl := Host.Outcome.next.inj (hx.symm.trans hm)
    · exact absurd hacc hne
    · rw [hacc] at hne
      obtain ⟨i, hd, hi⟩ := legal_writer_of_seqWord_ne s.crc w hne
      exact ⟨w, i, head?_append_word_of_acceptPhase e { s with edges := es } w ws hq, hd, hi⟩
  · rw [hs] at h; cases h

/-! ### States that differ only in `CRC` and in the values of responses

No path leads from `CRC` to anything else: the relation below is kept by each phase, and so by every step. -/

/-- The two states agree in every field but `CRC`, and hold as many waiting and as many delivered responses. -/
structure AgreeButCrc (s s' : State) : Prop where
  cmdQueue : s.cmdQueue = s'.cmdQueue
  rspShown : s.rspShown = s'.rspShown
  fill : s.fill = s'.fill
  offered : s.offered = s'.offered
  edges : s.edges = s'.edges
  accepted : s.accepted = s'.accepted
  rspCount : s.rspQueue.length = s'.rspQueue.length
  deliveredCount : s.delivered.length = s'.delivered.length

theorem agreeButCrc_with_crc (s : State) (c : Word) : AgreeButCrc s { s with crc := c } :=
  ⟨rfl, rfl, rfl, rfl, rfl, rfl, rfl, rfl⟩

theorem executePhase_of_idle (e : Edge) (s : State) (h : e.busy = true ∨ s.cmdQueue = []) :
    executePhase e s = .next s := by
  obtain h | h := h <;> simp [executePhase, h]

theorem executePhase_of_head (e : Edge) (s : State) (w : CmdWord) (ws : List CmdWord) (hb : e.busy = false)
    (hq : s.cmdQueue = w :: ws) :
    executePhase e s = .next { s with
      crc := (seqWord s.crc w).1
      cmdQueue := ws
      rspQueue := s.rspQueue ++ [(seqWord s.crc w).2] } := by
  simp [executePhase, hb, hq, runWord_eq]

/-- A response is shown exactly if one waits and it was shown before or is not held back (R34). -/
theorem shownResponse_eq (e : Edge) (s : State) :
    shownResponse e s = if s.rspShown || !e.hold then s.rspQueue.head? else none := by
  unfold shownResponse
  cases s.rspQueue with
  | nil => simp
  | cons r rs => rfl

theorem deliverPhase_of_hidden (e : Edge) (s : State) (h : shownResponse e s = none) : deliverPhase e s = s := by
  simp [deliverPhase, h]

theorem deliverPhase_of_taken (e : Edge) (s : State) (r : Response) (h : shownResponse e s = some r)
    (hr : e.inp.rspReady = true) :
    deliverPhase e s =
      { s with rspQueue := s.rspQueue.tail, rspShown := false, delivered := s.delivered ++ [r] } := by
  simp [deliverPhase, h, hr]

theorem deliverPhase_of_waiting (e : Edge) (s : State) (r : Response) (h : shownResponse e s = some r)
    (hr : e.inp.rspReady = false) : deliverPhase e s = { s with rspShown := true } := by
  simp [deliverPhase, h, hr]

namespace AgreeButCrc

variable {s s' : State}

theorem cmdReady_eq (h : AgreeButCrc s s') (e : Edge) : cmdReady e s = cmdReady e s' := by
  rw [cmdReady, cmdReady, h.fill]

theorem cmdAccepted_eq (h : AgreeButCrc s s') (e : Edge) : cmdAccepted e s = cmdAccepted e s' := by
  rw [cmdAccepted, cmdAccepted, h.cmdReady_eq]

theorem offerKept_eq (h : AgreeButCrc s s') (e : Edge) : offerKept e s = offerKept e s' := by
  rw [offerKept, offerKept, h.offered]

/-- Whether a response is shown does not depend on `CRC` (R34). -/
theorem shownResponse_isSome_eq (h : AgreeButCrc s s') (e : Edge) :
    (shownResponse e s).isSome = (shownResponse e s').isSome := by
  have hq : s.rspQueue.head?.isSome = s'.rspQueue.head?.isSome := by
    rw [Bool.eq_iff_iff, List.isSome_head?, List.isSome_head?, ← List.length_pos_iff, ← List.length_pos_iff, h.rspCount]
  rw [shownResponse_eq, shownResponse_eq, h.rspShown]
  split
  · exact hq
  · rfl

theorem with_edges (h : AgreeButCrc s s') (es : List Edge) :
    AgreeButCrc { s with edges := es } { s' with edges := es } :=
  { h with edges := rfl }

theorem reset (h : AgreeButCrc s s') (o : Option CmdWord) : AgreeButCrc (applyReset o s) (applyReset o s') :=
  ⟨rfl, rfl, rfl, rfl, h.edges, rfl, rfl, rfl⟩

theorem accept (h : AgreeButCrc s s') (e : Edge) : AgreeButCrc (acceptPhase e s) (acceptPhase e s') := by
  unfold acceptPhase
  rw [h.cmdAccepted_eq e]
  split
  · exact { h with
      cmdQueue := congrArg (· ++ [e.inp.word]) h.cmdQueue
      accepted := congrArg (· ++ [e.inp.word]) h.accepted
      offered := rfl
      fill := congrArg (· - 1) h.fill }
  · exact { h with
      offered := rfl
      fill := congrArg (· - 1) h.fill }

/-- The execute phase carries a difference in `CRC` into `CRC` and the value of one response. -/
theorem execute (h : AgreeButCrc s s') (e : Edge) {m m' : State} (hm : executePhase e s = .next m)
    (hm' : executePhase e s' = .next m') : AgreeButCrc m m' := by
  obtain ⟨hx, hidle⟩ | ⟨w, ws, hb, hq, hx⟩ := executePhase_cases e s <;>
    obtain rfl := Host.Outcome.next.inj (hx.symm.trans hm)
  · rw [h.cmdQueue] at hidle
    obtain rfl := Host.Outcome.next.inj ((executePhase_of_idle e s' hidle).symm.trans hm')
    exact h
  · rw [h.cmdQueue] at hq
    obtain rfl := Host.Outcome.next.inj ((executePhase_of_head e s' w ws hb hq).symm.trans hm')
    exact { h with
      cmdQueue := rfl
      rspCount := by simp [h.rspCount] }

theorem deliver (h : AgreeButCrc s s') (e : Edge) : AgreeButCrc (deliverPhase e s) (deliverPhase e s') := by
  have hsome := h.shownResponse_isSome_eq e
  cases hr : shownResponse e s with
  | none =>
    have hr' : shownResponse e s' = none := by simpa [hr] using hsome
    rwa [deliverPhase_of_hidden e s hr, deliverPhase_of_hidden e s' hr']
  | some r =>
    obtain ⟨r', hr'⟩ := Option.isSome_iff_exists.1 (hsome.symm.trans (congrArg Option.isSome hr))
    cases hready : e.inp.rspReady with
    | true =>
      rw [deliverPhase_of_taken e s r hr hready, deliverPhase_of_taken e s' r' hr' hready]
      exact { h with
        rspShown := rfl
        rspCount := by simp [h.rspCount]
        deliveredCount := by simp [h.deliveredCount] }
    | false =>
      rw [deliverPhase_of_waiting e s r hr hready, deliverPhase_of_waiting e s' r' hr' hready]
      exact { h with rspShown := rfl }

/-- Every step keeps the agreement, and one state steps if the other does. -/
theorem step_next (h : AgreeButCrc s s') {t : State} (ht : step s = .next t) :
    ∃ t', step s' = .next t' ∧ AgreeButCrc t t' := by
  obtain ⟨hn, hs⟩ | ⟨e, es, he, hr, hs⟩ | ⟨e, es, m, he, hr, hk, hm, hs⟩ | ⟨e, es, -, -, -, hs⟩ := step_cases s
  · obtain rfl := Host.Outcome.next.inj (hs.symm.trans ht)
    exact ⟨s', by simp [step, ← h.edges, hn], h⟩
  · obtain rfl := Host.Outcome.next.inj (hs.symm.trans ht)
    exact ⟨_, step_of_reset s' e es (h.edges ▸ he) hr, (h.with_edges es).reset _⟩
  · obtain rfl := Host.Outcome.next.inj (hs.symm.trans ht)
    obtain ⟨m', hm'⟩ := executePhase_next e (acceptPhase e { s' with edges := es })
    have hphases := (((h.with_edges es).accept e).execute e hm hm').deliver e
    exact ⟨_, step_of_phases s' m' e es (h.edges ▸ he) hr (h.offerKept_eq e ▸ hk) hm', hphases⟩
  · rw [hs] at ht; cases ht

end AgreeButCrc

/-! ### The output ports (R32) -/

theorem portOut_of_reset (e : Edge) (s : State) (hr : e.inp.rst = true) : portOut e s = ⟨false, none⟩ := by
  simp [portOut, hr]

theorem portOut_of_next (e : Edge) (s m : State) (hr : e.inp.rst = false)
    (hm : executePhase e (acceptPhase e s) = .next m) : portOut e s = ⟨cmdReady e s, shownResponse e m⟩ := by
  simp [portOut, hr, hm]

/-- Up to the response port, an edge only adds responses behind those that wait (R35). -/
theorem rspQueue_append_of_execute (e : Edge) (s m : State) (hm : executePhase e (acceptPhase e s) = .next m) :
    ∃ rs, m.rspQueue = s.rspQueue ++ rs := by
  have hacc : (acceptPhase e s).rspQueue = s.rspQueue := (acceptPhase_frame e s).2.1
  rw [← hacc]
  obtain ⟨hx, -⟩ | ⟨w, ws, -, -, hx⟩ := executePhase_cases e (acceptPhase e s) <;>
    obtain rfl := Host.Outcome.next.inj (hx.symm.trans hm)
  · exact ⟨[], (List.append_nil _).symm⟩
  · exact ⟨_, rfl⟩

/-- Neither `cmd_ready` nor `rsp_valid` depends on `CRC`, and a response that already waited is shown unchanged (R11). -/
theorem portOut_with_crc (s : State) (c : Word) (e : Edge) :
    (portOut e { s with crc := c }).cmdReady = (portOut e s).cmdReady ∧
    (portOut e { s with crc := c }).rsp.isSome = (portOut e s).rsp.isSome ∧
    (s.rspQueue ≠ [] → (portOut e { s with crc := c }).rsp = (portOut e s).rsp) := by
  cases hr : e.inp.rst with
  | true =>
    rw [portOut_of_reset e _ hr, portOut_of_reset e _ hr]
    exact ⟨rfl, rfl, fun _ => rfl⟩
  | false =>
    obtain ⟨m, hm⟩ := executePhase_next e (acceptPhase e s)
    obtain ⟨m', hm'⟩ := executePhase_next e (acceptPhase e { s with crc := c })
    have hagree := agreeButCrc_with_crc s c
    have hphases := (hagree.accept e).execute e hm hm'
    rw [portOut_of_next e _ m' hr hm', portOut_of_next e s m hr hm]
    refine ⟨(hagree.cmdReady_eq e).symm, (hphases.shownResponse_isSome_eq e).symm, fun hne => ?_⟩
    obtain ⟨r, rs, hq⟩ := List.exists_cons_of_ne_nil hne
    obtain ⟨x, hx⟩ := rspQueue_append_of_execute e s m hm
    obtain ⟨x', hx'⟩ := rspQueue_append_of_execute e { s with crc := c } m' hm'
    have hhead : m'.rspQueue.head? = m.rspQueue.head? := by
      rw [hx, hx', hq]; rfl
    change shownResponse e m' = shownResponse e m
    rw [shownResponse_eq, shownResponse_eq, ← hphases.rspShown, hhead]

/-- Settles O7: the written values by the equation of `exec` and the equality of the two forms of the step, the readers by
injectivity in `CRC`, the absence of another path by the relation `AgreeButCrc`, which every step keeps. -/
theorem crcWritersAreTheTable : Obligations.CrcWritersAreTheTable := by
  unfold Obligations.CrcWritersAreTheTable
  refine ⟨fun i s => ?_, fun w s hw => ?_, fun s e es he hr => ?_, fun i hi => ?_, fun w hw => ?_,
    fun i hi s s' hne => ?_, reset_or_writer_of_step_crc_ne, portOut_with_crc, fun s t c ht => ?_⟩
  · refine ⟨_, exec_eq i s, ?_⟩
    cases i with
    | upd b => exact crcStep_eq_stepFb s.crc b
    | init | fin | getst | setst | tblrd => rfl
  · obtain ⟨k, hk⟩ := runWord_of_not_wellFormed w hw
    exact ⟨_, hk s, rfl⟩
  · exact ⟨_, step_of_reset s e es he hr, rfl⟩
  · obtain ⟨d, hd⟩ := dataOf_const_of_nonReader i hi
    exact ⟨d, fun s => ⟨_, exec_eq i s, by rw [hd]⟩⟩
  · obtain ⟨k, hk⟩ := runWord_of_not_wellFormed w hw
    exact ⟨k.code, fun s => ⟨_, hk s, rfl⟩⟩
  · exact ⟨_, _, _, _, exec_eq i s, exec_eq i s', rfl, rfl, (dataOf_injective_of_reader i hi).ne hne⟩
  · obtain ⟨u, hu, hut⟩ := (agreeButCrc_with_crc s c).step_next ht
    exact ⟨u, hu, hut.cmdQueue.symm, hut.rspShown.symm, hut.fill.symm, hut.offered.symm, hut.edges.symm,
      hut.accepted.symm, hut.rspCount.symm, hut.deliveredCount.symm⟩

end Sys2Proof.Machine

namespace Sys2Proof

/-! ### The decoder by opcode and by format: which words are legal, and why the others are not (R36 to R42) -/

/-- The decoder gives back every command with its operand (R36 to R41). -/
theorem decode_encode (i : Instr) : decode (encode i) = .legal i := by
  cases i <;> simp [encode, decode_cmdWord, argOfByte]

theorem encode_injective : Function.Injective encode := fun i j h =>
  Decoded.legal.inj ((decode_encode i).symm.trans ((congrArg decode h).trans (decode_encode j)))

/-- The words that decode to a command are those it assembles to (R41, R45). -/
theorem decode_eq_legal_iff (w : CmdWord) (i : Instr) : decode w = .legal i ↔ encode i = w :=
  ⟨fun h => (eq_encode_of_decode_legal w i h).symm, fun h => h ▸ decode_encode i⟩

theorem decodeN_eq_illegal_iff (w : CmdWord) (i : Instr) (c : Cause) :
    decodeN w i = .illegal c ↔ argField w ≠ 0#32 ∧ c = .reservedOperandBits := by
  by_cases h : argField w = 0#32 <;> simp [decodeN, h, eq_comm]

theorem decodeB_eq_illegal_iff (w : CmdWord) (f : Byte → Instr) (c : Cause) :
    decodeB w f = .illegal c ↔ argHigh w ≠ 0#24 ∧ c = .reservedOperandBits := by
  by_cases h : argHigh w = 0#24 <;> simp [decodeB, h, eq_comm]

/-- The values of `op` that no command has (R42). -/
def ReservedOp (op : BitVec 4) : Prop := op = 0#4 ∨ 7 ≤ op.toNat

/-- Six values of `op` are opcodes, the others are reserved (R37, R42). -/
theorem op_cases (op : BitVec 4) :
    op = 1#4 ∨ op = 2#4 ∨ op = 3#4 ∨ op = 4#4 ∨ op = 5#4 ∨ op = 6#4 ∨ ReservedOp op := by
  unfold ReservedOp
  revert op
  decide

theorem ReservedOp.ne_opcode {op : BitVec 4} (h : ReservedOp op) :
    op ≠ 1#4 ∧ op ≠ 2#4 ∧ op ≠ 3#4 ∧ op ≠ 4#4 ∧ op ≠ 5#4 ∧ op ≠ 6#4 := by
  unfold ReservedOp at h
  revert op
  decide

/-- A reserved opcode reaches the decoder's last arm. -/
theorem decode_of_reservedOp (w : CmdWord) (h : ReservedOp (opField w)) : decode w = .illegal .reservedOpcode := by
  simp [decode, h.ne_opcode]

/-- Cause 1 is a reserved opcode, whatever `arg` holds (R42). -/
theorem decode_eq_reservedOpcode_iff (w : CmdWord) :
    decode w = .illegal .reservedOpcode ↔ ReservedOp (opField w) := by
  refine ⟨fun h => ?_, decode_of_reservedOp w⟩
  obtain ho | ho | ho | ho | ho | ho | ho := op_cases (opField w)
  case inr.inr.inr.inr.inr.inr => exact ho
  all_goals simp [decode, ho, decodeN_eq_illegal_iff, decodeB_eq_illegal_iff] at h

/-- Cause 2 is an opcode of format N or B with a reserved bit of `arg` set (R38, R39, R42). -/
theorem decode_eq_reservedOperandBits_iff (w : CmdWord) :
    decode w = .illegal .reservedOperandBits ↔
      ((opField w = 1#4 ∨ opField w = 3#4 ∨ opField w = 4#4) ∧ argField w ≠ 0#32) ∨
      ((opField w = 2#4 ∨ opField w = 6#4) ∧ argHigh w ≠ 0#24) := by
  obtain ho | ho | ho | ho | ho | ho | ho := op_cases (opField w)
  case inr.inr.inr.inr.inr.inr => simp [decode_of_reservedOp w ho, ho.ne_opcode]
  all_goals simp [decode, ho, decodeN_eq_illegal_iff, decodeB_eq_illegal_iff]

/-! ### The number of legal words (R42) -/

/-- The commands are three without operand, two with a byte and one with a word (R37). -/
def Instr.equivSum : Instr ≃ Fin 3 ⊕ Byte ⊕ Byte ⊕ Word where
  toFun
    | .init => .inl 0
    | .fin => .inl 1
    | .getst => .inl 2
    | .upd b => .inr (.inl b)
    | .tblrd k => .inr (.inr (.inl k))
    | .setst v => .inr (.inr (.inr v))
  invFun
    | .inl 0 => .init
    | .inl 1 => .fin
    | .inl 2 => .getst
    | .inr (.inl b) => .upd b
    | .inr (.inr (.inl k)) => .tblrd k
    | .inr (.inr (.inr v)) => .setst v
  left_inv i := by cases i <;> rfl
  right_inv x := by
    obtain k | b | k | v := x
    case inl => fin_cases k <;> rfl
    all_goals rfl

theorem natCard_bitVec (n : Nat) : Nat.card (BitVec n) = 2 ^ n :=
  (Nat.card_congr BitVec.equivFin.toEquiv).trans (Nat.card_fin _)

theorem natCard_instr : Nat.card Instr = 3 + 256 + 256 + 2 ^ 32 := by
  rw [Nat.card_congr Instr.equivSum, Nat.card_sum, Nat.card_sum, Nat.card_sum, Nat.card_fin, natCard_bitVec,
    natCard_bitVec]
  norm_num

/-- There are as many legal words as commands: the legal words are the range of the encoder. -/
theorem natCard_legal_words : Nat.card { w : CmdWord // ∃ i, decode w = .legal i } = Nat.card Instr :=
  (Nat.card_congr (Equiv.subtypeEquivRight fun w => exists_congr (decode_eq_legal_iff w))).trans
    (Nat.card_range_of_injective encode_injective)

/-! ### The rows of the match and mask table (R41) -/

/-- A mask that keeps all of `op` fixes the opcode and what it keeps of `arg`. -/
theorem fields_eq_of_mask (w : CmdWord) (op : BitVec 4) (marg arg : Word)
    (h : w &&& cmdWord 0xF#4 marg = cmdWord op arg) : opField w = op ∧ argField w &&& marg = arg := by
  rw [← cmdWord_fields w, cmdWord_and] at h
  have hop := congrArg opField h
  have harg := congrArg argField h
  simp only [opField_cmdWord, argField_cmdWord] at hop harg
  exact ⟨(BitVec.and_allOnes).symm.trans hop, harg⟩

/-- The mask of format B leaves exactly the reserved bits of `arg` (R39). -/
theorem high_zero_of_mask (arg : Word) (h : arg &&& 0xFFFFFF00#32 = 0#32) : arg.extractLsb' 8 24 = 0#24 := by
  have hmask := congrArg (BitVec.extractLsb' 8 24) h
  rw [BitVec.extractLsb'_and] at hmask
  exact (BitVec.and_allOnes).symm.trans hmask

theorem eq_encode_of_selects_formatB (w : CmdWord) (op : BitVec 4)
    (h : w &&& cmdWord 0xF#4 0xFFFFFF00#32 = cmdWord op 0#32) : w = cmdWord op (argOfByte (argByte w)) := by
  obtain ⟨hop, harg⟩ := fields_eq_of_mask w op _ _ h
  rw [argByte, ← eq_argOfByte_of_high_zero _ (high_zero_of_mask _ harg), ← hop, cmdWord_fields]

/-- A word that a row selects is the word of a command of that row. -/
theorem exists_encode_of_selects (w : CmdWord) (r : OpRow) (hr : r ∈ opcodeTable) (h : r.selects w = true) :
    ∃ i : Instr, encode i = w ∧ i.row = r := by
  have hsel : w &&& r.mask = r.mtch := beq_iff_eq.1 h
  simp only [opcodeTable, List.mem_cons, List.not_mem_nil, or_false] at hr
  obtain rfl | rfl | rfl | rfl | rfl | rfl := hr
  · exact ⟨.init, hsel.symm.trans BitVec.and_allOnes, rfl⟩
  · exact ⟨.upd (argByte w), (eq_encode_of_selects_formatB w 2#4 hsel).symm, rfl⟩
  · exact ⟨.fin, hsel.symm.trans BitVec.and_allOnes, rfl⟩
  · exact ⟨.getst, hsel.symm.trans BitVec.and_allOnes, rfl⟩
  · refine ⟨.setst (argField w), ?_, rfl⟩
    rw [encode, ← (fields_eq_of_mask w 5#4 0#32 0#32 hsel).1, cmdWord_fields]
  · exact ⟨.tblrd (argByte w), (eq_encode_of_selects_formatB w 6#4 hsel).symm, rfl⟩

/-- A row selects exactly the words of its commands (R41). -/
theorem selects_iff (w : CmdWord) (r : OpRow) (hr : r ∈ opcodeTable) :
    r.selects w = true ↔ ∃ i : Instr, decode w = .legal i ∧ i.row = r := by
  simp only [decode_eq_legal_iff]
  refine ⟨exists_encode_of_selects w r hr, ?_⟩
  rintro ⟨i, rfl, rfl⟩
  exact row_selects_encode i

/-- No two rows select one word: it decodes to one command, which has one row (R41). -/
theorem row_unique_of_selects (w : CmdWord) (r q : OpRow) (hr : r ∈ opcodeTable) (hq : q ∈ opcodeTable)
    (hrw : r.selects w = true) (hqw : q.selects w = true) : r = q := by
  obtain ⟨i, hi, rfl⟩ := (selects_iff w r hr).1 hrw
  obtain ⟨j, hj, rfl⟩ := (selects_iff w q hq).1 hqw
  rw [Decoded.legal.inj (hi.symm.trans hj)]

/-- A word is illegal exactly if no row selects it (R41). -/
theorem no_row_selects_iff (w : CmdWord) :
    (∀ r ∈ opcodeTable, r.selects w = false) ↔ ∃ c, decode w = .illegal c := by
  constructor
  · exact fun h => decode_illegal_of_not_wellFormed w (List.any_eq_false.2 fun r hr => by simp [h r hr])
  · rintro ⟨c, hc⟩ r hr
    refine Bool.eq_false_iff.2 fun hs => ?_
    obtain ⟨i, hi, -⟩ := (selects_iff w r hr).1 hs
    cases hc.symm.trans hi

/-- The reserved opcodes are those of no row (R41, R42). -/
theorem reservedOp_iff_no_row (op : BitVec 4) :
    ReservedOp op ↔ ∀ r ∈ opcodeTable, op ≠ r.mtch.extractLsb' 32 4 := by
  unfold ReservedOp
  revert op
  decide

/-- The byte operand is the low byte of the word (R39). -/
theorem extractLsb'_cmdWord_argOfByte (op : BitVec 4) (b : Byte) :
    (cmdWord op (argOfByte b)).extractLsb' 0 8 = b := by
  rw [cmdWord, BitVec.extractLsb'_append_eq_of_add_le (by decide)]
  exact byte_append 0#24 b

/-- Settles O16: each row selects the words of its own commands, and the decoder inverts the encoder; disjointness, totality
and the operand fields follow, and the cause is read off the opcode. -/
theorem decoderIsTheMatchTable : Obligations.DecoderIsTheMatchTable := by
  unfold Obligations.DecoderIsTheMatchTable
  refine ⟨selects_iff, row_unique_of_selects, no_row_selects_iff, fun w c hc => ?_, fun w => ⟨?_, ?_, ?_⟩⟩
  · calc c = .reservedOpcode
        ↔ decode w = .illegal .reservedOpcode := by rw [hc, Decoded.illegal.injEq]
      _ ↔ ReservedOp (opField w) := decode_eq_reservedOpcode_iff w
      _ ↔ _ := reservedOp_iff_no_row (opField w)
  all_goals
    intro x hx
    rw [eq_encode_of_decode_legal w _ hx]
  · exact (extractLsb'_cmdWord_argOfByte _ x).symm
  · exact (argField_cmdWord _ x).symm
  · exact (extractLsb'_cmdWord_argOfByte _ x).symm

end Sys2Proof

namespace Sys2Proof.Machine

/-- An illegal word answers the code of the cause that the decoder gives it and leaves `CRC` (R42, R82). -/
theorem runWord_of_illegal (w : CmdWord) (k : Cause) (s : State) (h : decode w = .illegal k) :
    runWord w s = .next { s with rspQueue := s.rspQueue ++ [⟨true, k.code⟩] } := by
  rw [runWord_eq, seqWord_of_illegal _ w k h]

/-- Settles O11: the two causes by opcode and format, the effect by the equation of `runWord`, the count by the encoder. -/
theorem illegalWordsAreTheseWords : Obligations.IllegalWordsAreTheseWords := by
  unfold Obligations.IllegalWordsAreTheseWords
  refine ⟨fun op arg => ⟨?_, ?_⟩, fun w s hw => ?_, by decide, by decide, natCard_legal_words.trans natCard_instr⟩
  · simpa [ReservedOp] using decode_eq_reservedOpcode_iff (cmdWord op arg)
  · simpa [argHigh] using decode_eq_reservedOperandBits_iff (cmdWord op arg)
  · obtain ⟨k, hk⟩ := decode_illegal_of_not_wellFormed w hw
    refine ⟨_, k.code, runWord_of_illegal w k s hk, rfl, rfl, ?_⟩
    cases k with
    | reservedOpcode => exact .inl ⟨hk, rfl⟩
    | reservedOperandBits => exact .inr ⟨hk, rfl⟩

end Sys2Proof.Machine

namespace Sys2Proof.Machine

/-! ### The one-bit step bit by bit (R49) -/

/-- The feedback column: bit `k` comes from bit `k + 1`, with bit 0 fed back where `poly` has a one (R49). -/
theorem g_getLsbD (s : Word) (k : Nat) : (g s).getLsbD k = (s.getLsbD (k + 1) ^^ (s.getLsbD 0 && poly.getLsbD k)) := by
  cases h : s.getLsbD 0 with
  | false => rw [g_of_low_zero s h, BitVec.getLsbD_ushiftRight, Nat.add_comm, Bool.false_and, Bool.xor_false]
  | true => rw [g_of_low_one s h, BitVec.getLsbD_xor, BitVec.getLsbD_ushiftRight, Nat.add_comm, Bool.true_and]

/-- The shift leaves bit 31 clear and `poly` has a one there (R49, R56). -/
theorem g_getLsbD_top (s : Word) : (g s).getLsbD 31 = s.getLsbD 0 := by
  have hpoly : poly.getLsbD 31 = true := by decide
  rw [g_getLsbD, BitVec.getLsbD_of_ge s 32 le_rfl, hpoly, Bool.and_true, Bool.false_xor]

/-- The places of the ones of `poly` (R49). -/
theorem poly_getLsbD_iff (k : Nat) :
    poly.getLsbD k = true ↔ k ∈ [31, 30, 29, 27, 26, 24, 23, 21, 20, 19, 15, 9, 8, 5] := by
  have hword : ∀ j < 32, poly.getLsbD j = true ↔ j ∈ [31, 30, 29, 27, 26, 24, 23, 21, 20, 19, 15, 9, 8, 5] := by decide
  by_cases hk : k < 32
  · exact hword k hk
  · have hplaces : ∀ j ∈ [31, 30, 29, 27, 26, 24, 23, 21, 20, 19, 15, 9, 8, 5], j < 32 := by decide
    rw [BitVec.getLsbD_of_ge poly k (by omega)]
    exact ⟨fun h => absurd h Bool.false_ne_true, fun h => absurd (hplaces k h) hk⟩

/-- Settles O19: the bits of `g` by its two branches, the ones of `poly` bit by bit. -/
theorem oneBitStepBits : Obligations.OneBitStepBits := by
  unfold Obligations.OneBitStepBits
  exact ⟨fun _ => rfl, g_getLsbD_top, fun s k _ => g_getLsbD s k, poly_getLsbD_iff, by decide⟩

/-! ### Linearity of the table and of the one-byte step (R51, R55) -/

theorem zext32_xor (b c : Byte) : zext32 (b ^^^ c) = zext32 b ^^^ zext32 c := BitVec.setWidth_xor

theorem tblEntry_xor (i j : Byte) : tblEntry (i ^^^ j) = tblEntry i ^^^ tblEntry j := by
  simp only [tblEntry, zext32_xor, gIter_xor]

theorem tblEntry_zero : tblEntry 0#8 = 0#32 := by decide

theorem stepFb_zero_state (b : Byte) : stepFb 0#32 b = tblEntry b := by
  rw [stepFb, BitVec.zero_xor, tblEntry]

theorem crcStep_xor (s t : Word) (b c : Byte) : crcStep (s ^^^ t) (b ^^^ c) = crcStep s b ^^^ crcStep t c := by
  simp only [crcStep_eq_stepFb, stepFb, zext32_xor, ← gIter_xor]
  ac_rfl

/-- The byte's part of a step is the byte's table entry (R55). -/
theorem crcStep_split (s : Word) (b : Byte) : crcStep s b = crcStep s 0#8 ^^^ tblEntry b := by
  have h := crcStep_xor s 0#32 0#8 b
  rwa [BitVec.xor_zero, BitVec.zero_xor, crcStep_eq_stepFb 0#32 b, stepFb_zero_state] at h

/-- The byte may be folded into the state before the step (R55). -/
theorem crcStep_fold_byte (s : Word) (b : Byte) : crcStep s b = crcStep (s ^^^ zext32 b) 0#8 := by
  have hz : zext32 0#8 = 0#32 := by decide
  rw [crcStep_eq_stepFb, crcStep_eq_stepFb, stepFb, stepFb, hz, BitVec.xor_zero]

/-- Settles O24: all is the linearity of `g`, carried to its eighth iterate. -/
theorem linearity : Obligations.Linearity := by
  unfold Obligations.Linearity
  exact ⟨g_xor, by decide, tblEntry_xor, crcStep_xor, crcStep_split, crcStep_fold_byte⟩

/-! ### The three forms of the one-byte step (R52, R54) -/

/-- Settles O22: the lemma that eight one-bit steps are one table step. -/
theorem stepFormsAgree : Obligations.StepFormsAgree := by
  unfold Obligations.StepFormsAgree
  exact fun s b => ⟨(crcStep_eq_stepFb s b).symm, crcStep_eq_stepFb s b⟩

/-- A word is its bit 0 and, one place up, the rest: `g` shifts the rest down without feedback. -/
theorem g_eq_low_xor_shift (w : Word) : g w = g ((BitVec.ofBool (w.getLsbD 0)).setWidth 32) ^^^ (w >>> 1) := by
  refine BitVec.eq_of_getLsbD_eq fun k _ => ?_
  simp [g_getLsbD, Nat.add_comm 1 k, Bool.xor_comm]

/-- Folding a whole word in and taking one step is taking in its bit 0, then folding in the rest (R52). -/
theorem g_xor_eq_serialBit (s w : Word) : g (s ^^^ w) = serialBit s (w.getLsbD 0) ^^^ (w >>> 1) := by
  rw [g_xor, g_eq_low_xor_shift w, ← BitVec.xor_assoc, ← g_xor, serialBit]

/-- Taking in the low `n` bits of `w` one a clock: the bits of `w` above them have not come in yet (R52). -/
theorem foldl_serialBit (n : Nat) (s w : Word) :
    ((List.range n).map w.getLsbD).foldl serialBit s = gIter n (s ^^^ w) ^^^ (w >>> n) := by
  induction n generalizing s w with
  | zero => simp
  | succ n ih =>
    have hbits : (fun k => w.getLsbD (k + 1)) = (w >>> 1).getLsbD := by
      funext k
      rw [BitVec.getLsbD_ushiftRight, Nat.add_comm]
    calc ((List.range (n + 1)).map w.getLsbD).foldl serialBit s
        = ((List.range n).map fun k => w.getLsbD (k + 1)).foldl serialBit (serialBit s (w.getLsbD 0)) := by
          rw [List.range_succ_eq_map, List.map_cons, List.map_map, List.foldl_cons]; rfl
      _ = gIter n (serialBit s (w.getLsbD 0) ^^^ (w >>> 1)) ^^^ (w >>> 1 >>> n) := by rw [hbits, ih]
      _ = gIter (n + 1) (s ^^^ w) ^^^ (w >>> (n + 1)) := by
          rw [← g_xor_eq_serialBit, ← gIter_succ, ← BitVec.shiftRight_add, Nat.add_comm]

theorem byteBits_eq_zext32_bits (b : Byte) : byteBits b = (List.range 8).map (zext32 b).getLsbD := by
  refine List.map_congr_left fun k hk => ?_
  have : k < 32 := (List.mem_range.1 hk).trans (by decide)
  simp [zext32, this]

/-- The serial implementation reaches the value of the feedback form (R52). -/
theorem stepSerial_eq_stepFb (s : Word) (b : Byte) : stepSerial s b = stepFb s b := by
  rw [stepSerial, byteBits_eq_zext32_bits, foldl_serialBit, zext32_shift_eight, BitVec.xor_zero, stepFb]

/-- Settles O23: the serial form by induction on the bits taken in; the written-out lists and steps are the definitions'. -/
theorem serialFormAgrees : Obligations.SerialFormAgrees := by
  unfold Obligations.SerialFormAgrees
  refine ⟨fun s b => ⟨stepSerial_eq_stepFb s b, rfl, stepSerial_eq_stepFb s b⟩, fun b => ⟨stepFb_zero_state b, ?_⟩,
    by decide⟩
  exact (crcStep_eq_stepFb 0#32 b).trans (stepFb_zero_state b)

/-! ### The top byte of an entry names the entry (R51) -/

/-- The feedbacks of the last `n` steps show in the top `n` bits: where those are clear, there was none, so the low `n` bits
of the start were clear. -/
theorem low_zero_of_gIter_top_zero (n : Nat) (hn : n ≤ 32) (v : Word)
    (h : ∀ k < n, (gIter n v).getLsbD (31 - k) = false) : ∀ k < n, v.getLsbD k = false := by
  induction n generalizing v with
  | zero => exact fun k hk => absurd hk k.not_lt_zero
  | succ n ih =>
    have hrest : ∀ k < n, (g v).getLsbD k = false := ih (by omega) (g v) fun k hk => h k (by omega)
    have hfirst : v.getLsbD 0 = false := by
      have htop := h n (by omega)
      rwa [gIter_succ, gIter_of_low_zero n (g v) hrest, BitVec.getLsbD_ushiftRight, show n + (31 - n) = 31 by omega,
        g_getLsbD_top] at htop
    intro k hk
    cases k with
    | zero => exact hfirst
    | succ k =>
      have hnext := hrest k (by omega)
      rwa [g_getLsbD, hfirst, Bool.false_and, Bool.xor_false] at hnext

theorem eq_zero_of_topByte_tblEntry (i : Byte) (h : topByte (tblEntry i) = 0#8) : i = 0#8 := by
  have htop : ∀ k < 8, (tblEntry i).getLsbD (31 - k) = false := fun k hk => by
    have hbit := congrArg (BitVec.getLsbD · (7 - k)) h
    simpa [topByte, show 7 - k < 8 by omega, show 24 + (7 - k) = 31 - k by omega] using hbit
  refine BitVec.eq_of_getLsbD_eq fun k hk => ?_
  have hlow := low_zero_of_gIter_top_zero 8 (by decide) (zext32 i) htop k hk
  simpa [zext32, show k < 32 by omega] using hlow

theorem topByte_xor (s t : Word) : topByte (s ^^^ t) = topByte s ^^^ topByte t := BitVec.extractLsb'_xor

/-- The top bytes of the entries are pairwise distinct (R51 (d)). -/
theorem topByte_tblRead_injective : Function.Injective fun i => topByte (tblRead i) := fun i j h => by
  have hzero : topByte (tblEntry (i ^^^ j)) = 0#8 := by
    rw [tblEntry_xor, topByte_xor]
    exact BitVec.xor_eq_zero_iff.2 h
  exact BitVec.xor_eq_zero_iff.1 (eq_zero_of_topByte_tblEntry _ hzero)

/-! ### The table as a whole and `TBLRD` (R50, R51, R57) -/

/-- The exclusive-or of entries is the entry of the exclusive-or of their indices (R51). -/
theorem foldl_xor_tblEntry (is : List Byte) (i : Byte) :
    (is.map tblEntry).foldl (fun x y => x ^^^ y) (tblEntry i) = tblEntry (is.foldl (fun x y => x ^^^ y) i) := by
  induction is generalizing i with
  | nil => rfl
  | cons j is ih => rw [List.map_cons, List.foldl_cons, List.foldl_cons, ← tblEntry_xor, ih]

theorem buildTable_eq_map : buildTable = ((List.range 256).map (BitVec.ofNat 8)).map tblEntry := by
  rw [List.map_map]; rfl

/-- The exclusive-or of all entries is zero, as that of all bytes is (R51 (e)). -/
theorem foldl_xor_buildTable : buildTable.foldl (fun x y => x ^^^ y) 0#32 = 0#32 := by
  have hbytes : ((List.range 256).map (BitVec.ofNat 8)).foldl (fun x y => x ^^^ y) 0#8 = 0#8 := by decide +kernel
  have h := foldl_xor_tblEntry ((List.range 256).map (BitVec.ofNat 8)) 0#8
  rwa [hbytes, tblEntry_zero, ← buildTable_eq_map] at h

/-- `TBLRD i` adds one response with the entry, in every state (R57). -/
theorem exec_tblrd (i : Byte) (s : State) :
    exec (.tblrd i) s = .next { s with rspQueue := s.rspQueue ++ [⟨false, tblRead i⟩] } := exec_eq (.tblrd i) s

/-- Settles O21: the entries are linear in the index, and no other index than 0 has an entry with a clear top byte. -/
theorem tableFacts : Obligations.TableFacts := by
  unfold Obligations.TableFacts
  refine ⟨tblEntry_zero, by decide, by decide, by decide, by decide, by decide, by decide, by decide, by decide,
    tblEntry_xor, fun i j h => topByte_tblRead_injective (congrArg topByte h), fun i j h => topByte_tblRead_injective h,
    by decide, foldl_xor_buildTable, fun i => ⟨tblRead i, exec_tblrd i⟩⟩

/-- Settles O6: the equation of `exec`, the decoder on the encoding, and cause 2 for the reserved bits of format B. -/
theorem tblrdRespondsEntry : Obligations.TblrdRespondsEntry := by
  unfold Obligations.TblrdRespondsEntry
  refine ⟨exec_tblrd, fun i => ⟨rfl, decode_encode (.tblrd i)⟩, fun hi i s hne => ?_, tblEntry_zero, by decide⟩
  have hop : opField (cmdWord 6#4 (hi ++ i)) = 6#4 := opField_cmdWord _ _
  have harg : argHigh (cmdWord 6#4 (hi ++ i)) = hi := by rw [argHigh, argField_cmdWord, high_append]
  have hcause : decode (cmdWord 6#4 (hi ++ i)) = .illegal .reservedOperandBits :=
    (decode_eq_reservedOperandBits_iff _).2 (.inr ⟨.inr hop, harg.symm ▸ hne⟩)
  exact runWord_of_illegal _ _ s hcause

/-- Settles O20: `build_table` lists the entry of every byte at the byte's own index. -/
theorem tableIsBuildTable : Obligations.TableIsBuildTable := by
  unfold Obligations.TableIsBuildTable
  refine ⟨by rw [buildTable, List.length_map, List.length_range], fun i => ⟨?_, rfl, rfl, by decide⟩⟩
  rw [buildTable, List.getElem?_map, List.getElem?_range i.isLt, Option.map_some, BitVec.ofNat_toNat, BitVec.setWidth_eq]
  rfl

/-! ### The inverse steps (R56) -/

theorem surjective_of_injective {n : Nat} {f : BitVec n → BitVec n} (h : Function.Injective f) : Function.Surjective f :=
  have : Finite (BitVec n) := Finite.of_equiv _ BitVec.equivFin.symm.toEquiv
  Finite.surjective_of_injective h

/-- `ginv` is an inverse on the other side too: `g` is injective, so it reaches every word. -/
theorem g_ginv (t : Word) : g (ginv t) = t := by
  obtain ⟨s, rfl⟩ := surjective_of_injective g_injective t
  rw [ginv_g]

theorem gIter_succ_last (n : Nat) (v : Word) : gIter (n + 1) v = g (gIter n v) := gIter_add n 1 v

theorem ginvIter_gIter (n : Nat) (v : Word) : ginvIter n (gIter n v) = v := by
  induction n with
  | zero => rfl
  | succ n ih => rw [gIter_succ_last, ginvIter_succ, ginv_g, ih]

theorem gIter_ginvIter (n : Nat) (t : Word) : gIter n (ginvIter n t) = t := by
  induction n generalizing t with
  | zero => rfl
  | succ n ih => rw [ginvIter_succ, gIter_succ_last, ih, g_ginv]

theorem crcUnstep_crcStep (s : Word) (b : Byte) : crcUnstep (crcStep s b) b = s := by
  rw [crcStep_eq_stepFb, stepFb, crcUnstep, ginvIter_gIter, xor_cancel_right]

theorem crcStep_crcUnstep (t : Word) (b : Byte) : crcStep (crcUnstep t b) b = t := by
  rw [crcStep_eq_stepFb, stepFb, crcUnstep, xor_cancel_right, gIter_ginvIter]

/-- Shifting `{r[23:0], b}` right by eight gives `r` back, if its top byte is zero. -/
theorem append_shift_eight (r : Word) (b : Byte) (h : topByte r = 0#8) :
    (r.extractLsb' 0 24 ++ b : Word) >>> 8 = r := by
  refine BitVec.eq_of_getLsbD_eq fun k hk => ?_
  rw [BitVec.getLsbD_ushiftRight, argBytes_getLsbD, if_neg (by omega), Nat.add_sub_cancel_left, BitVec.getLsbD_extractLsb',
    Nat.zero_add]
  by_cases hlow : k < 24
  · simp [hlow]
  · have hbit := congrArg (BitVec.getLsbD · (k - 24)) h
    have htop : r.getLsbD k = false := by
      simpa [topByte, show k - 24 < 8 by omega, show 24 + (k - 24) = k by omega] using hbit
    simp [hlow, htop]

/-- The index of a step folds the byte into the state's low byte (R53). -/
theorem updIndex_eq (s : Word) (b : Byte) : updIndex s b = lowByte s ^^^ b := by
  refine BitVec.eq_of_getLsbD_eq fun k hk => ?_
  simp [updIndex, lowByte, zext32, hk, show k < 32 by omega]

/-- The table form of the inverse, given the index whose entry has the top byte of `t` (R56). -/
theorem crcStep_tableUnstep (t : Word) (k b : Byte) (h : topByte (tblRead k) = topByte t) :
    crcStep (tableUnstep t k b) b = t := by
  have htop : topByte (t ^^^ tblRead k) = 0#8 := by rw [topByte_xor, h, BitVec.xor_self]
  have hindex : updIndex (tableUnstep t k b) b = k := by
    rw [updIndex_eq, tableUnstep, lowByte, byte_append, xor_cancel_right]
  rw [crcStep, stepTbl, hindex, tableUnstep, append_shift_eight _ _ htop, xor_cancel_right]

/-- Settles O25: `ginv` undoes `g` on both sides, so its eighth iterate undoes a step; in the table form the top byte of an
entry names its index, and every byte is a top byte. -/
theorem stepIsBijective : Obligations.StepIsBijective := by
  unfold Obligations.StepIsBijective
  refine ⟨fun s => ⟨ginv_g s, g_getLsbD_top s⟩, g_ginv, crcUnstep_crcStep, crcStep_crcUnstep, fun b => ?_, fun t b => ?_⟩
  · exact Function.bijective_iff_has_inverse.2
      ⟨fun t => crcUnstep t b, fun s => crcUnstep_crcStep s b, fun t => crcStep_crcUnstep t b⟩
  · obtain ⟨k, hk⟩ := surjective_of_injective topByte_tblRead_injective (topByte t)
    exact ⟨k, hk, fun j hj => topByte_tblRead_injective (hj.trans hk.symm), crcStep_tableUnstep t k b hk⟩

end Sys2Proof.Machine

namespace Sys2Proof.Machine

/-! ### Words of commands in the sequential reading (R11, R35, R44) -/

/-- The word of a command is read as the command (R11, R44). -/
@[simp] theorem seqWord_encode (c : Word) (i : Instr) :
    seqWord c (encode i) = (crcAfter c i, ⟨false, dataOf c i⟩) := seqWord_of_legal c _ i (decode_encode i)

@[simp] theorem wordsOf_nil : wordsOf [] = [] := rfl

@[simp] theorem wordsOf_cons (i : Instr) (is : List Instr) : wordsOf (i :: is) = encode i :: wordsOf is := rfl

@[simp] theorem wordsOf_append (is js : List Instr) : wordsOf (is ++ js) = wordsOf is ++ wordsOf js :=
  List.map_append

@[simp] theorem length_wordsOf (is : List Instr) : (wordsOf is).length = is.length := List.length_map _

@[simp] theorem length_updateInstrs (data : List Byte) : (updateInstrs data).length = data.length :=
  List.length_map _

/-- A message in two parts is one message (R72, R76). -/
theorem update_append (s : Word) (a b : List Byte) : update s (a ++ b) = update (update s a) b := by
  induction a generalizing s with
  | nil => rfl
  | cons x a ih => exact ih (crcStep s x)

/-- The words of `UPDATE data` leave `update(s, data)` (R73). -/
@[simp] theorem seqCrc_updateInstrs (s : Word) (data : List Byte) :
    seqCrc s (wordsOf (updateInstrs data)) = update s data := by
  induction data generalizing s with
  | nil => rfl
  | cons b data ih =>
    calc seqCrc s (wordsOf (updateInstrs (b :: data)))
        = seqCrc (seqWord s (encode (.upd b))).1 (wordsOf (updateInstrs data)) := rfl
      _ = seqCrc (crcStep s b) (wordsOf (updateInstrs data)) := by rw [seqWord_encode, crcAfter]
      _ = update s (b :: data) := ih (crcStep s b)

/-- `FIN` answers the finalised value (R66). -/
theorem seqRsps_fin (c : Word) : seqRsps c [encode .fin] = [⟨false, finalize c⟩] := by
  rw [seqRsps_cons, seqWord_encode]
  rfl

/-- `FIN` leaves `CRC` (R67). -/
theorem seqCrc_fin (c : Word) : seqCrc c [encode .fin] = c := by
  rw [seqCrc_cons, seqWord_encode]
  rfl

/-- `INIT, UPDATE data` leaves the state of the message, whatever `CRC` held (R61, R75). -/
theorem seqCrc_init_update (c : Word) (data : List Byte) :
    seqCrc c (wordsOf ([.init] ++ updateInstrs data)) = update seed data := by
  rw [wordsOf_append, seqCrc_append, seqCrc_updateInstrs, wordsOf_cons, seqCrc_cons, seqWord_encode]
  rfl

/-- After any words a `FIN` answers the finalised `CRC`, and the words behind it start from that same `CRC` (R67). -/
theorem seqRsps_append_fin_append (c : Word) (ws vs : List CmdWord) :
    seqRsps c (ws ++ [encode .fin] ++ vs) =
      seqRsps c ws ++ [⟨false, finalize (seqCrc c ws)⟩] ++ seqRsps (seqCrc c ws) vs := by
  rw [seqRsps_append, seqRsps_append, seqCrc_append, seqRsps_fin, seqCrc_fin]

/-- Settles O29: a `FIN` passes on the `CRC` it reads, so `UPDATE b` continues `a`, and `update` over `a ++ b` is `update`
over `b` after `a`. -/
theorem finEndsNothing : Obligations.FinEndsNothing := by
  unfold Obligations.FinEndsNothing
  refine fun c a b => ⟨seqRsps c (wordsOf ([.init] ++ updateInstrs a)),
    seqRsps (update seed a) (wordsOf (updateInstrs b)), ?_, by simp, by simp, seqCrc_fin c, ⟨false, finalize c⟩, ?_⟩
  · calc seqRsps c (wordsOf ([.init] ++ updateInstrs a ++ [.fin] ++ updateInstrs b ++ [.fin]))
        = seqRsps c (wordsOf ([.init] ++ updateInstrs a) ++ [encode .fin] ++
            (wordsOf (updateInstrs b) ++ [encode .fin] ++ [])) := by simp
      _ = seqRsps c (wordsOf ([.init] ++ updateInstrs a)) ++ [⟨false, checksum a⟩] ++
            (seqRsps (update seed a) (wordsOf (updateInstrs b)) ++
              [⟨false, finalize (update (update seed a) b)⟩] ++ []) := by
          rw [seqRsps_append_fin_append, seqRsps_append_fin_append, seqCrc_init_update, seqCrc_updateInstrs]
          rfl
      _ = _ := by
          rw [← update_append, checksum, checksum, List.append_nil, List.append_assoc, List.append_assoc, List.append_assoc]
  · exact (seqRsps_append c [encode .fin] [encode .fin]).trans (by rw [seqCrc_fin, seqRsps_fin]; rfl)

/-! ### The accumulate family, command by command (R61, R63, R66) -/

/-- A word that decodes to a command executes it (R41). -/
theorem runWord_of_legal (w : CmdWord) (i : Instr) (s : State) (h : decode w = .legal i) : runWord w s = exec i s := by
  rw [runWord, h]

/-- A non-zero `arg` beside an opcode of format N is cause 2, and nothing but the response is written (R38, R82). -/
theorem runWord_formatN_of_arg_ne_zero (op : BitVec 4) (arg : Word) (s : State)
    (hop : op = 1#4 ∨ op = 3#4 ∨ op = 4#4) (harg : arg ≠ 0#32) :
    runWord (cmdWord op arg) s = .next { s with rspQueue := s.rspQueue ++ [⟨true, 0x00000002#32⟩] } :=
  runWord_of_illegal _ .reservedOperandBits s
    ((decode_eq_reservedOperandBits_iff _).2 (.inl (by rw [opField_cmdWord, argField_cmdWord]; exact ⟨hop, harg⟩)))

/-- A non-zero `arg[31:8]` beside an opcode of format B is cause 2, and nothing but the response is written (R39, R82). -/
theorem runWord_formatB_of_high_ne_zero (op : BitVec 4) (hi : BitVec 24) (b : Byte) (s : State)
    (hop : op = 2#4 ∨ op = 6#4) (hne : hi ≠ 0#24) :
    runWord (cmdWord op (hi ++ b)) s = .next { s with rspQueue := s.rspQueue ++ [⟨true, 0x00000002#32⟩] } :=
  runWord_of_illegal _ .reservedOperandBits s ((decode_eq_reservedOperandBits_iff _).2
    (.inr (by rw [opField_cmdWord, argHigh, argField_cmdWord, high_append]; exact ⟨hop, hne⟩)))

/-- Settles O1: the equation of `exec`, the decoder on the encoding, and cause 2 for an `arg` in format N. -/
theorem initWritesSeed : Obligations.InitWritesSeed := by
  unfold Obligations.InitWritesSeed
  exact ⟨exec_eq .init, rfl, decode_encode .init,
    fun arg s harg => runWord_formatN_of_arg_ne_zero 1#4 arg s (.inl rfl) harg⟩

/-- `UPD b` writes the stepped state and answers it, in every state (R63). -/
theorem exec_upd (b : Byte) (s : State) :
    exec (.upd b) s =
      .next { s with crc := crcStep s.crc b, rspQueue := s.rspQueue ++ [⟨false, crcStep s.crc b⟩] } := exec_eq (.upd b) s

/-- A byte equal to the state's low byte reads entry 0, which is zero: the step is the bare shift (R53). -/
theorem crcStep_lowByte (c : Word) : crcStep c (lowByte c) = c >>> 8 := by
  rw [crcStep, stepTbl, updIndex_eq, BitVec.xor_self, tblRead, tblEntry_zero, BitVec.xor_zero]

/-- Settles O2: `exec` steps `CRC` by the table form; the encoding decodes back, a reserved bit is cause 2; and the corner
cases are values of the step. -/
theorem updStepsTheAccumulator : Obligations.UpdStepsTheAccumulator := by
  unfold Obligations.UpdStepsTheAccumulator
  refine ⟨exec_upd, fun b => ⟨rfl, decode_encode (.upd b)⟩,
    fun hi b s hne => runWord_formatB_of_high_ne_zero 2#4 hi b s (.inl rfl) hne, fun s hs => ?_, fun s => ?_, fun s hs => ?_⟩
  · have hstep : crcStep s.crc 0#8 = 0#32 := by rw [hs]; exact crcStep_lowByte 0#32
    rw [exec_upd, hstep, ← hs]
  · have hstep : crcStep s.crc (s.crc.extractLsb' 0 8) = s.crc >>> 8 := crcStep_lowByte s.crc
    rw [exec_upd, hstep]
  · have hword : decode 0x200000061#36 = .legal (.upd 0x61#8) := decode_encode (.upd 0x61#8)
    have hstep : crcStep s.crc 0x61#8 = 0x174841BC#32 := by rw [hs]; decide
    rw [runWord_of_legal _ _ s hword, exec_upd, hstep]

/-- Settles O3: the equation of `exec`, the complement as exclusive or with all ones, the decoder on the encoding, and cause 2
for an `arg` in format N. -/
theorem finRespondsComplement : Obligations.FinRespondsComplement := by
  unfold Obligations.FinRespondsComplement
  exact ⟨exec_eq .fin, fun c => BitVec.xor_allOnes, rfl, decode_encode .fin,
    fun arg s harg => runWord_formatN_of_arg_ne_zero 3#4 arg s (.inr (.inl rfl)) harg⟩

end Sys2Proof.Machine

namespace Sys2Proof.Machine

/-! ### The context family: the last response, words that do not write `CRC`, save and restore (R69, R70, R71) -/

/-- The last response of a list of words is that of its last word, in the state the words before it leave (R35). -/
theorem getLast?_seqRsps_concat (c : Word) (ws : List CmdWord) (w : CmdWord) :
    (seqRsps c (ws ++ [w])).getLast? = some (seqWord (seqCrc c ws) w).2 := by
  rw [seqRsps_append, seqRsps_cons, seqRsps_nil, List.getLast?_concat]

/-- A word that is no `INIT`, `UPD` or `SETST` leaves `CRC` (R11). -/
theorem seqWord_crc_of_nonWriter (c : Word) (w : CmdWord)
    (h : decode w ≠ .legal .init ∧ (∀ b, decode w ≠ .legal (.upd b)) ∧ ∀ v, decode w ≠ .legal (.setst v)) :
    (seqWord c w).1 = c := by
  by_contra hne
  obtain ⟨hinit, hupd, hsetst⟩ := h
  obtain ⟨i, hi, rfl | ⟨b, rfl⟩ | ⟨v, rfl⟩⟩ := legal_writer_of_seqWord_ne c w hne
  · exact hinit hi
  · exact hupd b hi
  · exact hsetst v hi

/-- Words none of which writes `CRC` leave it as it was (R11). -/
theorem seqCrc_of_nonWriters (c : Word) (ws : List CmdWord) (h : ∀ w ∈ ws, (seqWord c w).1 = c) :
    seqCrc c ws = c := by
  induction ws with
  | nil => rfl
  | cons w ws ih =>
    obtain ⟨hw, hws⟩ := List.forall_mem_cons.1 h
    rw [seqCrc_cons, hw, ih hws]

/-- A command that writes `CRC` answers the value it writes (R61, R63, R70). -/
theorem dataOf_eq_crcAfter_of_writesCrc (c : Word) (i : Instr) (h : WritesCrc i) : dataOf c i = crcAfter c i := by
  obtain rfl | ⟨b, rfl⟩ | ⟨v, rfl⟩ := h
  · rfl
  · rfl
  · rfl

/-- After a command and words that do not write `CRC`, `CRC` is what the command left (R69). -/
theorem seqCrc_encode_nonWriters (c : Word) (i : Instr) (ws : List CmdWord)
    (h : ∀ w ∈ ws, decode w ≠ .legal .init ∧ (∀ b, decode w ≠ .legal (.upd b)) ∧ ∀ v, decode w ≠ .legal (.setst v)) :
    seqCrc c (encode i :: ws) = crcAfter c i := by
  rw [seqCrc_cons, seqWord_encode]
  exact seqCrc_of_nonWriters _ ws fun w hw => seqWord_crc_of_nonWriter _ w (h w hw)

/-- `finalize` undoes itself (R74). -/
theorem finalize_finalize (c : Word) : finalize (finalize c) = c := by
  rw [finalize, finalize, BitVec.xor_assoc, BitVec.xor_self, BitVec.xor_zero]

/-- After `GETST`, any words and `SETST` of the answer, `CRC` is what it was at the `GETST` (R71). -/
theorem seqCrc_save_restore (c : Word) (p : List CmdWord) :
    seqCrc c ([encode .getst] ++ p ++ [encode (.setst c)]) = c := by
  rw [seqCrc_append, seqCrc_cons, seqWord_encode]
  rfl

/-- The words after a save and restore leave the `CRC` they would have left right after the `GETST` (R71). -/
theorem seqCrc_save_restore_append (c : Word) (p q : List CmdWord) :
    seqCrc c ([encode .getst] ++ p ++ [encode (.setst c)] ++ q) = seqCrc c q := by
  rw [seqCrc_append, seqCrc_save_restore]

/-- `GETST` and `SETST` of its answer respond with the state, and the words between start from it (R69, R70). -/
theorem seqRsps_save_restore (c : Word) (p : List CmdWord) :
    seqRsps c ([encode .getst] ++ p ++ [encode (.setst c)]) = [⟨false, c⟩] ++ seqRsps c p ++ [⟨false, c⟩] := by
  rw [seqRsps_append, seqRsps_append, seqRsps_cons, seqRsps_cons, seqWord_encode, seqWord_encode]
  rfl

/-- Settles O30: `SETST` puts back the `CRC` that `GETST` answered, so the words behind it start from the same state; for a
message that state is `update` over `a`, and `update` over `b` continues it. -/
theorem saveAndRestore : Obligations.SaveAndRestore := by
  unfold Obligations.SaveAndRestore
  refine fun c p q => ⟨c, seqRsps c p, ?_, seqRsps_length c p, seqCrc_save_restore_append c p q, fun a b hc => ?_⟩
  · rw [seqRsps_append, seqRsps_save_restore, seqCrc_save_restore]
  · have hcrc : seqCrc c ([encode .getst] ++ p ++ [encode (.setst c)] ++ wordsOf (updateInstrs b)) =
        update seed (a ++ b) := by
      rw [seqCrc_save_restore_append, seqCrc_updateInstrs, hc, update_append]
    rw [wordsOf_append, wordsOf_cons, wordsOf_nil, ← List.append_assoc, getLast?_seqRsps_concat, hcrc, seqWord_encode]
    rfl

/-- Settles O4: the equation of `exec`; a writing command answers what it leaves in `CRC`, which `GETST` and `FIN` then read
behind any words that do not write it; the decoder on the encoding, and cause 2 for an `arg` in format N. -/
theorem getstRespondsRawState : Obligations.GetstRespondsRawState := by
  unfold Obligations.GetstRespondsRawState
  refine ⟨exec_eq .getst, fun s => ⟨s.crc, finalize s.crc, exec_eq .getst s, exec_eq .fin s, ?_⟩,
    fun c i ws hws hi => ⟨crcAfter c i, ?_, ?_, ?_⟩, rfl, decode_encode .getst,
    fun arg s harg => runWord_formatN_of_arg_ne_zero 4#4 arg s (.inr (.inr rfl)) harg⟩
  · rw [finalize, ← BitVec.xor_assoc, BitVec.xor_self, BitVec.zero_xor, xorout]
  · rw [seqRsps_cons, seqWord_encode, List.head?_cons, dataOf_eq_crcAfter_of_writesCrc c i hi]
  · rw [← List.cons_append, getLast?_seqRsps_concat, seqCrc_encode_nonWriters c i ws hws, seqWord_encode, dataOf]
  · rw [← List.cons_append, getLast?_seqRsps_concat, seqCrc_encode_nonWriters c i ws hws, seqWord_encode, dataOf]

/-- Settles O5: the equation of `exec`, the decoder on the encoding, and `finalize` as its own inverse for the resume from a
finalised value. -/
theorem setstLoadsRawState : Obligations.SetstLoadsRawState := by
  unfold Obligations.SetstLoadsRawState
  exact ⟨fun v s => exec_eq (.setst v) s, fun v => ⟨rfl, decode_encode (.setst v)⟩, fun s => rfl,
    fun c s => ⟨_, exec_eq (.setst _) s, finalize_finalize c⟩, crcStep_lowByte 0#32, by decide⟩

end Sys2Proof.Machine

namespace Sys2Proof.Machine

/-! ### Whole messages: the split point, `CHECKSUM` and the residue (R75, R76, R80) -/

/-- `UPDATE` of a message in two parts is the two `UPDATE`s, one after the other (R46, R76). -/
theorem updateInstrs_append (a b : List Byte) : updateInstrs (a ++ b) = updateInstrs a ++ updateInstrs b :=
  List.map_append

/-- Settles O26: `update` over an append is `update` twice, and the commands of `UPDATE (a ++ b)` are those of `UPDATE a` and
`UPDATE b`. -/
theorem incrementalUpdate : Obligations.IncrementalUpdate := by
  unfold Obligations.IncrementalUpdate
  refine ⟨update_append, fun a b => ?_, fun a b => ?_⟩
  · rw [checksum, update_append]
  · rw [checksumInstrs, updateInstrs_append]
    rfl

/-- The words of `CHECKSUM data` are those of `INIT, UPDATE data` and a `FIN` (R46). -/
theorem wordsOf_checksumInstrs (data : List Byte) :
    wordsOf (checksumInstrs data) = wordsOf ([.init] ++ updateInstrs data) ++ [encode .fin] :=
  wordsOf_append ([.init] ++ updateInstrs data) [.fin]

/-- `CHECKSUM data` leaves the state of the message, whatever `CRC` held (R75). -/
theorem seqCrc_checksumInstrs (c : Word) (data : List Byte) :
    seqCrc c (wordsOf (checksumInstrs data)) = update seed data := by
  rw [wordsOf_checksumInstrs, seqCrc_append, seqCrc_init_update, seqCrc_fin]

/-- `CHECKSUM data` answers `checksum(data)` at its `FIN`, whatever words came before (R75). -/
theorem getLast?_seqRsps_append_checksumInstrs (c : Word) (ws : List CmdWord) (data : List Byte) :
    (seqRsps c (ws ++ wordsOf (checksumInstrs data))).getLast? = some ⟨false, checksum data⟩ := by
  rw [wordsOf_checksumInstrs, ← List.append_assoc, getLast?_seqRsps_concat, seqCrc_append, seqCrc_init_update,
    seqWord_encode]
  rfl

/-- Settles O28: the `INIT` sets `CRC` whatever it held, so the `FIN` answers for `data` alone, behind no words or behind
those of another `CHECKSUM`. -/
theorem checksumPseudoCommand : Obligations.ChecksumPseudoCommand := by
  unfold Obligations.ChecksumPseudoCommand
  refine fun c data => ⟨getLast?_seqRsps_append_checksumInstrs c [] data, seqCrc_checksumInstrs c data, ?_, fun more => ?_⟩
  · simp [checksumInstrs]
  · rw [wordsOf_append, getLast?_seqRsps_append_checksumInstrs]

/-- Eight one-bit steps of the state with a whole word folded in: the word's low byte is divided, and the rest of the word
moves down by eight, since no feedback comes from its low bits (R80). -/
theorem gIter_eight_xor (s w : Word) : gIter 8 (s ^^^ w) = crcStep s (lowByte w) ^^^ (w >>> 8) := by
  rw [gIter_xor, gIter_eight w, crcStep_eq_stepFb, stepFb, gIter_xor, tblEntry, BitVec.xor_assoc,
    BitVec.xor_comm (w >>> 8)]

/-- The low byte of a shifted word is the byte at that place. -/
theorem lowByte_ushiftRight (w : Word) (n : Nat) : lowByte (w >>> n) = w.extractLsb' n 8 := by
  refine BitVec.eq_of_getLsbD_eq fun k hk => ?_
  simp [lowByte, hk]

/-- The bytes of a word are the low bytes met on shifting it out eight bits at a time (R80). -/
theorem leBytes_eq_lowByte_shifts (w : Word) :
    leBytes w = [lowByte w, lowByte (w >>> 8), lowByte (w >>> 8 >>> 8), lowByte (w >>> 8 >>> 8 >>> 8)] := by
  rw [← BitVec.shiftRight_add, ← BitVec.shiftRight_add, lowByte_ushiftRight, lowByte_ushiftRight, lowByte_ushiftRight]
  rfl

/-- The bytes of a word, least significant first, divide as the 32 bits of the word at once (R80). -/
theorem update_leBytes (s w : Word) : update s (leBytes w) = gIter 32 (s ^^^ w) := by
  have hshift : w >>> 8 >>> 8 >>> 8 >>> 8 = 0#32 := by
    rw [← BitVec.shiftRight_add, ← BitVec.shiftRight_add, ← BitVec.shiftRight_add]
    exact BitVec.ushiftRight_eq_zero (Nat.le_refl 32)
  symm
  calc gIter 32 (s ^^^ w)
      = gIter 8 (gIter 8 (gIter 8 (gIter 8 (s ^^^ w)))) := rfl
    _ = update s (leBytes w) ^^^ (w >>> 8 >>> 8 >>> 8 >>> 8) := by
        rw [gIter_eight_xor, gIter_eight_xor, gIter_eight_xor, gIter_eight_xor, leBytes_eq_lowByte_shifts]
        rfl
    _ = update s (leBytes w) := by rw [hshift, BitVec.xor_zero]

/-- Folding the finalised state into the state itself leaves all ones (R80). -/
theorem xor_finalize (s : Word) : s ^^^ finalize s = 0xFFFFFFFF#32 := by
  rw [finalize, ← BitVec.xor_assoc, BitVec.xor_self, BitVec.zero_xor, xorout]

/-- The 32-bit division of all ones, evaluated as four steps over zero bytes (R80). -/
theorem gIter_32_allOnes : gIter 32 0xFFFFFFFF#32 = 0xDEBB20E3#32 :=
  calc gIter 32 0xFFFFFFFF#32
      = update 0xFFFFFFFF#32 (leBytes 0#32) := by rw [update_leBytes, BitVec.xor_zero]
    _ = 0xDEBB20E3#32 := by decide

/-- A message and its checksum leave the residue, whatever the message (R80). -/
theorem update_append_checksum (m : List Byte) : update seed (m ++ leBytes (checksum m)) = 0xDEBB20E3#32 := by
  rw [update_append, update_leBytes, checksum, xor_finalize, gIter_32_allOnes]

/-- Settles O31: the checksum's bytes meet the state they are the complement of, so 32 one-bit steps run from all ones. -/
theorem residueIsConstant : Obligations.ResidueIsConstant := by
  unfold Obligations.ResidueIsConstant
  refine fun m => ⟨update_append_checksum m, ?_⟩
  rw [checksum, update_append_checksum]
  decide

/-- Settles O32: each checksum is evaluated by the model. -/
theorem knownAnswers : Obligations.KnownAnswers := by
  unfold Obligations.KnownAnswers
  exact ⟨by decide, by decide, by decide, by decide, by decide⟩

end Sys2Proof.Machine

namespace Sys2Proof

/-- A word is well formed exactly if it decodes to a command (R41, R81). -/
theorem wellFormed_iff (w : CmdWord) : w.wellFormed = true ↔ ∃ i, decode w = .legal i := by
  constructor
  · intro h
    obtain ⟨r, hr, hs⟩ := List.any_eq_true.1 h
    obtain ⟨i, hi, -⟩ := (selects_iff w r hr).1 hs
    exact ⟨i, hi⟩
  · rintro ⟨i, hi⟩
    exact wellFormed_of_decode_legal w i hi

/-- A word is not well formed exactly if it is illegal (R42, R82). -/
theorem not_wellFormed_iff (w : CmdWord) : w.wellFormed = false ↔ ∃ c, decode w = .illegal c := by
  refine ⟨decode_illegal_of_not_wellFormed w, ?_⟩
  rintro ⟨c, hc⟩
  refine Bool.eq_false_iff.2 fun hw => ?_
  obtain ⟨i, hi⟩ := (wellFormed_iff w).1 hw
  cases hc.symm.trans hi

end Sys2Proof

namespace Sys2Proof.Machine

/-- Settles O9: a well-formed word decodes to a command, and `exec` answers every command without error. -/
theorem wellFormedWordsNeverRaise : Obligations.WellFormedWordsNeverRaise := by
  unfold Obligations.WellFormedWordsNeverRaise
  intro w s hw
  obtain ⟨i, hi⟩ := (wellFormed_iff w).1 hw
  exact ⟨_, dataOf s.crc i, (runWord_of_legal w i s hi).trans (exec_eq i s), rfl⟩

/-- Settles O10: the equation of `runWord` for an illegal word, with the code of each cause; and the opcode table as the
decoder. -/
theorem illegalWordEffect : Obligations.IllegalWordEffect := by
  unfold Obligations.IllegalWordEffect
  refine ⟨fun w s c hc => ?_, not_wellFormed_iff⟩
  cases c with
  | reservedOpcode => exact runWord_of_illegal w .reservedOpcode s hc
  | reservedOperandBits => exact runWord_of_illegal w .reservedOperandBits s hc

/-! ### Illegal words in the sequential reading (R86) -/

/-- A response carries an error exactly if its word is not well formed (R44, R81, R82). -/
theorem seqWord_err (c : Word) (w : CmdWord) : (seqWord c w).2.err = !w.wellFormed := by
  cases hw : w.wellFormed with
  | true =>
    obtain ⟨i, hi⟩ := (wellFormed_iff w).1 hw
    rw [seqWord_of_legal c w i hi, Bool.not_true]
  | false =>
    obtain ⟨k, hk⟩ := (not_wellFormed_iff w).1 hw
    rw [seqWord_of_illegal c w k hk, Bool.not_false]

/-- A word that is not well formed leaves `CRC` (R82). -/
theorem seqWord_crc_of_not_wellFormed (c : Word) (w : CmdWord) (hw : w.wellFormed = false) : (seqWord c w).1 = c := by
  obtain ⟨k, hk⟩ := (not_wellFormed_iff w).1 hw
  rw [seqWord_of_illegal c w k hk]

/-- `CRC` is as without the illegal words (R86). -/
theorem seqCrc_filter_wellFormed (c : Word) (ws : List CmdWord) :
    seqCrc c (ws.filter CmdWord.wellFormed) = seqCrc c ws := by
  induction ws generalizing c with
  | nil => rfl
  | cons w ws ih =>
    cases hw : w.wellFormed with
    | true => rw [List.filter_cons_of_pos hw, seqCrc_cons, seqCrc_cons, ih]
    | false =>
      rw [List.filter_cons_of_neg (Bool.eq_false_iff.1 hw), seqCrc_cons, seqWord_crc_of_not_wellFormed c w hw, ih]

/-- The responses without error are as without the illegal words (R86). -/
theorem seqRsps_filter_wellFormed (c : Word) (ws : List CmdWord) :
    seqRsps c (ws.filter CmdWord.wellFormed) = (seqRsps c ws).filter fun r => !r.err := by
  induction ws generalizing c with
  | nil => rfl
  | cons w ws ih =>
    have herr := seqWord_err c w
    cases hw : w.wellFormed with
    | true =>
      rw [List.filter_cons_of_pos hw, seqRsps_cons, seqRsps_cons, List.filter_cons_of_pos (by simp [herr, hw]), ih]
    | false =>
      rw [List.filter_cons_of_neg (Bool.eq_false_iff.1 hw), seqRsps_cons, List.filter_cons_of_neg (by simp [herr, hw]),
        seqWord_crc_of_not_wellFormed c w hw, ih]

/-- Each word has a response of its own, with an error exactly if the word is not well formed (R86). -/
theorem map_err_seqRsps (c : Word) (ws : List CmdWord) :
    (seqRsps c ws).map Response.err = ws.map fun w => !w.wellFormed := by
  induction ws generalizing c with
  | nil => rfl
  | cons w ws ih => rw [seqRsps_cons, List.map_cons, List.map_cons, seqWord_err, ih]

/-- Settles O13: dropping the words that are not well formed drops just their responses, since they leave `CRC`. -/
theorem illegalWordsDoNoHarm : Obligations.IllegalWordsDoNoHarm := by
  unfold Obligations.IllegalWordsDoNoHarm
  exact fun c ws =>
    ⟨(seqCrc_filter_wellFormed c ws).symm, (seqRsps_filter_wellFormed c ws).symm, map_err_seqRsps c ws⟩

end Sys2Proof.Machine

namespace Sys2Proof

/-- Settles O14: the decoder on the encoding of each of the six commands. -/
theorem decodeEncodeAgree : Obligations.DecodeEncodeAgree := decode_encode

/-- Settles O15: a word that decodes to a command is the one the command assembles to. -/
theorem legalWordsAreEncodings : Obligations.LegalWordsAreEncodings := fun w i => (decode_eq_legal_iff w i).1

end Sys2Proof

namespace Sys2Proof.Machine

/-! ### One edge: its outcome, and each phase by what it writes (R33, R34, R35, R95) -/

/-- Everything a step that has a next state can do: nothing, a reset, or the three phases of an edge (R33, R93, R95). -/
theorem step_next_cases {s t : State} (h : step s = .next t) :
    (s.edges = [] ∧ t = s) ∨
    (∃ e es, s.edges = e :: es ∧ e.inp.rst = true ∧ t = applyReset e.inp.offer { s with edges := es }) ∨
    (∃ e es m, s.edges = e :: es ∧ e.inp.rst = false ∧
      executePhase e (acceptPhase e { s with edges := es }) = .next m ∧ t = deliverPhase e m) := by
  obtain ⟨he, hs⟩ | ⟨e, es, he, hr, hs⟩ | ⟨e, es, m, he, hr, -, hm, hs⟩ | ⟨e, es, -, -, -, hs⟩ := step_cases s <;>
    rw [hs] at h <;> cases h
  · exact .inl ⟨he, rfl⟩
  · exact .inr (.inl ⟨e, es, he, hr, rfl⟩)
  · exact .inr (.inr ⟨e, es, m, he, hr, hm, rfl⟩)

/-- At a listed edge with `rst = 1` the next state is what the reset writes (R95). -/
theorem eq_applyReset_of_step {s t : State} {e : Edge} {es : List Edge} (he : s.edges = e :: es) (hr : e.inp.rst = true)
    (h : step s = .next t) : t = applyReset e.inp.offer { s with edges := es } :=
  Host.Outcome.next.inj (h.symm.trans (step_of_reset s e es he hr))

/-- At a listed edge with `rst = 0` the next state is what the three phases leave (R33, R34, R35). -/
theorem eq_phases_of_step {s t : State} {e : Edge} {es : List Edge} (he : s.edges = e :: es) (hr : e.inp.rst = false)
    (h : step s = .next t) :
    ∃ m, executePhase e (acceptPhase e { s with edges := es }) = .next m ∧ t = deliverPhase e m := by
  obtain ⟨hn, -⟩ | ⟨e', es', he', hr', -⟩ | ⟨e', es', m, he', -, hm, ht⟩ := step_next_cases h
  · rw [hn] at he; cases he
  · rw [he] at he'; cases he'; rw [hr] at hr'; cases hr'
  · rw [he] at he'; cases he'; exact ⟨m, hm, ht⟩

/-- What a reset writes and each phase keeps, every step keeps. -/
theorem step_keeps_of_phases {P : State → Prop} (edges : ∀ s es, P s → P { s with edges := es })
    (reset : ∀ s o, P (applyReset o s)) (accept : ∀ s e, P s → P (acceptPhase e s))
    (execute : ∀ s m e, P s → executePhase e s = .next m → P m) (deliver : ∀ s e, P s → P (deliverPhase e s))
    (s t : State) (hs : P s) (h : step s = .next t) : P t := by
  obtain ⟨-, rfl⟩ | ⟨e, es, -, -, rfl⟩ | ⟨e, es, m, -, -, hm, rfl⟩ := step_next_cases h
  · exact hs
  · exact reset _ _
  · exact deliver m e (execute _ m e (accept _ e (edges s es hs)) hm)

/-- Everything the execute phase can leave: the state as it was, or the oldest word gone from the queue and its answer behind
the waiting ones (R28, R35). -/
theorem executePhase_next_cases {e : Edge} {s m : State} (h : executePhase e s = .next m) :
    (m = s ∧ (e.busy = true ∨ s.cmdQueue = [])) ∨
    (∃ w ws, e.busy = false ∧ s.cmdQueue = w :: ws ∧
      m = { s with
        crc := (seqWord s.crc w).1
        cmdQueue := ws
        rspQueue := s.rspQueue ++ [(seqWord s.crc w).2] }) := by
  obtain ⟨hx, hi⟩ | ⟨w, ws, hb, hq, hx⟩ := executePhase_cases e s <;> rw [hx] at h <;> cases h
  · exact .inl ⟨rfl, hi⟩
  · exact .inr ⟨w, ws, hb, hq, rfl⟩

/-! ### What the accepted words leave and answer (R35)

`finalCrc` and `answers` are the two sides that `SeqInv` compares with the sequential run. Accepting a word appends it to
both; executing and delivering move nothing in or out of them. -/

/-- The `CRC` that the queued commands will leave (R35). -/
def State.finalCrc (s : State) : Word := seqCrc s.crc s.cmdQueue

/-- The responses delivered, waiting, and still to be computed, in order (R35). -/
def State.answers (s : State) : List Response := s.delivered ++ s.rspQueue ++ seqRsps s.crc s.cmdQueue

theorem seqInv_iff (s : State) :
    s.SeqInv ↔ s.finalCrc = seqCrc seed s.accepted ∧ s.answers = seqRsps seed s.accepted := Iff.rfl

theorem finalCrc_of_idle (s : State) (hq : s.cmdQueue = []) : s.finalCrc = s.crc := by
  rw [State.finalCrc, hq, seqCrc_nil]

theorem answers_of_idle (s : State) (hq : s.cmdQueue = []) (hr : s.rspQueue = []) : s.answers = s.delivered := by
  rw [State.answers, hq, hr, seqRsps_nil, List.append_nil, List.append_nil]

/-- `t` is `s` after work on what was already accepted: the host's side is as it was, and so is what the accepted words
leave and answer. -/
structure WorksOff (s t : State) : Prop where
  finalCrc : t.finalCrc = s.finalCrc
  answers : t.answers = s.answers
  accepted : t.accepted = s.accepted
  offered : t.offered = s.offered
  fill : t.fill = s.fill
  edges : t.edges = s.edges

theorem WorksOff.refl (s : State) : WorksOff s s := ⟨rfl, rfl, rfl, rfl, rfl, rfl⟩

theorem WorksOff.trans {s t u : State} (hst : WorksOff s t) (htu : WorksOff t u) : WorksOff s u where
  finalCrc := htu.finalCrc.trans hst.finalCrc
  answers := htu.answers.trans hst.answers
  accepted := htu.accepted.trans hst.accepted
  offered := htu.offered.trans hst.offered
  fill := htu.fill.trans hst.fill
  edges := htu.edges.trans hst.edges

/-- Executing a word answers it with the value that was due (R35). -/
theorem worksOff_executePhase {e : Edge} {s m : State} (h : executePhase e s = .next m) : WorksOff s m := by
  obtain ⟨rfl, -⟩ | ⟨w, ws, -, hq, rfl⟩ := executePhase_next_cases h
  · exact .refl m
  · exact ⟨by rw [State.finalCrc, State.finalCrc, hq, seqCrc_cons],
      by simp [State.answers, hq], rfl, rfl, rfl, rfl⟩

/-- Delivering a response moves it from the waiting to the delivered ones (R34). -/
theorem worksOff_deliverPhase (e : Edge) (s : State) : WorksOff s (deliverPhase e s) := by
  obtain ⟨-, hd⟩ | ⟨r, rs, hq, -, -, hd⟩ | ⟨r, rs, -, -, -, hd⟩ := deliverPhase_cases e s <;> rw [hd]
  · exact .refl s
  · exact ⟨rfl, by simp [State.answers, hq], rfl, rfl, rfl, rfl⟩
  · exact ⟨rfl, rfl, rfl, rfl, rfl, rfl⟩

/-- The word that an edge accepts, if it accepts one (R33). -/
def newWords (e : Edge) (s : State) : List CmdWord := if cmdAccepted e s then [e.inp.word] else []

/-- The accept phase, whether or not it accepts a word (R33, R99). -/
theorem acceptPhase_eq (e : Edge) (s : State) :
    acceptPhase e s = { s with
      cmdQueue := s.cmdQueue ++ newWords e s
      accepted := s.accepted ++ newWords e s
      offered := if cmdAccepted e s then none else e.inp.offer
      fill := s.fill - 1 } := by
  obtain ⟨ha, h⟩ | ⟨ha, h⟩ := acceptPhase_cases e s <;> simp [h, newWords, ha]

/-- The accepted word's `CRC` follows on that of the words before it (R35). -/
theorem finalCrc_acceptPhase (e : Edge) (s : State) : (acceptPhase e s).finalCrc = seqCrc s.finalCrc (newWords e s) := by
  rw [acceptPhase_eq]
  exact seqCrc_append s.crc s.cmdQueue _

/-- The accepted word's answer comes behind those of the words before it (R35). -/
theorem answers_acceptPhase (e : Edge) (s : State) :
    (acceptPhase e s).answers = s.answers ++ seqRsps s.finalCrc (newWords e s) := by
  rw [acceptPhase_eq, State.answers, State.answers, seqRsps_append, ← List.append_assoc]
  rfl

theorem State.SeqInv.of_worksOff {s t : State} (hs : s.SeqInv) (h : WorksOff s t) : t.SeqInv := by
  rw [seqInv_iff] at hs ⊢
  rwa [h.finalCrc, h.answers, h.accepted]

/-- Accepting a word extends the sequential run by that word (R35). -/
theorem State.SeqInv.accept {s : State} (hs : s.SeqInv) (e : Edge) : (acceptPhase e s).SeqInv := by
  obtain ⟨hcrc, hrsp⟩ := (seqInv_iff s).1 hs
  have hacc : (acceptPhase e s).accepted = s.accepted ++ newWords e s := by rw [acceptPhase_eq]
  rw [seqInv_iff, finalCrc_acceptPhase, answers_acceptPhase, hacc, hcrc, hrsp, seqCrc_append, seqRsps_append]
  exact ⟨rfl, rfl⟩

theorem seqInv_applyReset (o : Option CmdWord) (s : State) : (applyReset o s).SeqInv := ⟨rfl, rfl⟩

/-- Settles O39: a reset starts the sequential run again, accepting extends it by the accepted word, executing and
delivering leave what was due. -/
theorem stepKeepsSequentialReading : Obligations.StepKeepsSequentialReading := by
  unfold Obligations.StepKeepsSequentialReading
  exact step_keeps_of_phases (P := State.SeqInv) (fun s es hs => hs) (fun s o => seqInv_applyReset o s)
    (fun s e hs => hs.accept e) (fun s m e hs hm => hs.of_worksOff (worksOff_executePhase hm))
    (fun s e hs => hs.of_worksOff (worksOff_deliverPhase e s))

/-! ### One response for each word, and the response port (R34, R35, R99, R104) -/

theorem countInv_iff_answers (s : State) : s.CountInv ↔ s.accepted.length = s.answers.length := by
  rw [State.CountInv, State.answers, List.length_append, List.length_append, seqRsps_length]

/-- Work on accepted words answers them one for one (R35). -/
theorem State.CountInv.of_worksOff {s t : State} (hs : s.CountInv) (h : WorksOff s t) : t.CountInv := by
  rw [countInv_iff_answers] at hs ⊢
  rwa [h.accepted, h.answers]

/-- An accepted word adds one to the answers due (R35, R104). -/
theorem State.CountInv.accept {s : State} (hs : s.CountInv) (e : Edge) : (acceptPhase e s).CountInv := by
  rw [countInv_iff_answers] at hs ⊢
  rw [answers_acceptPhase, List.length_append, seqRsps_length, ← hs, acceptPhase_eq, List.length_append]

/-- Settles O40: the answers are as many as the accepted words, since the accepted word adds one to both. -/
theorem stepKeepsResponseCount : Obligations.StepKeepsResponseCount := by
  unfold Obligations.StepKeepsResponseCount
  exact step_keeps_of_phases (P := State.CountInv) (fun s es hs => hs) (fun s o => rfl) (fun s e hs => hs.accept e)
    (fun s m e hs hm => hs.of_worksOff (worksOff_executePhase hm))
    (fun s e hs => hs.of_worksOff (worksOff_deliverPhase e s))

theorem portInv_applyReset (o : Option CmdWord) (s : State) : (applyReset o s).PortInv :=
  ⟨fun h => by simp at h, Nat.le_refl _⟩

theorem State.PortInv.accept {s : State} (hs : s.PortInv) (e : Edge) : (acceptPhase e s).PortInv := by
  rw [acceptPhase_eq]
  exact ⟨hs.1, (Nat.sub_le _ _).trans hs.2⟩

theorem State.PortInv.execute {e : Edge} {s m : State} (hs : s.PortInv) (h : executePhase e s = .next m) : m.PortInv := by
  obtain ⟨rfl, -⟩ | ⟨w, ws, -, -, rfl⟩ := executePhase_next_cases h
  · exact hs
  · exact ⟨fun _ => by simp, hs.2⟩

/-- A response is put on show only where one waits, and taking it ends the show (R34). -/
theorem State.PortInv.deliver {s : State} (hs : s.PortInv) (e : Edge) : (deliverPhase e s).PortInv := by
  obtain ⟨-, hd⟩ | ⟨r, rs, -, -, -, hd⟩ | ⟨r, rs, hq, -, -, hd⟩ := deliverPhase_cases e s <;> rw [hd]
  · exact hs
  · exact ⟨fun h => by simp at h, hs.2⟩
  · exact ⟨fun _ => by simp [hq], hs.2⟩

/-- Settles O41: each phase keeps a shown response present, and the fill only counts down from a whole fill. -/
theorem stepKeepsPortInv : Obligations.StepKeepsPortInv := by
  unfold Obligations.StepKeepsPortInv
  exact step_keeps_of_phases (P := State.PortInv) (fun s es hs => hs) (fun s o => portInv_applyReset o s)
    (fun s e hs => hs.accept e) (fun s m e hs hm => hs.execute hm) (fun s e hs => hs.deliver e)

/-- Settles O38: each field of the launch state is written out in its definition. -/
theorem resetMeetsInvariants : Obligations.ResetMeetsInvariants := by
  unfold Obligations.ResetMeetsInvariants
  exact ⟨⟨rfl, rfl⟩, rfl, ⟨(nomatch ·), Nat.zero_le _⟩, ⟨rfl, rfl, rfl, rfl, rfl⟩, rfl, rfl, rfl⟩

end Sys2Proof.Machine

namespace Sys2Proof.Machine

/-! ### The command port: which word is accepted, and what stays on offer (R33, R99) -/

theorem cmdReady_iff (e : Edge) (s : State) :
    cmdReady e s = true ↔ e.inp.rst = false ∧ s.fill = 0 ∧ e.stall = false := by
  simp [cmdReady, and_assoc]

/-- The port shows `cmd_ready`, in reset too, where it is low (R33, R94). -/
theorem portOut_cmdReady (e : Edge) (s : State) : (portOut e s).cmdReady = cmdReady e s := by
  cases hr : e.inp.rst with
  | true => simp [portOut_of_reset e s hr, cmdReady, hr]
  | false =>
    obtain ⟨m, hm⟩ := executePhase_next e (acceptPhase e s)
    rw [portOut_of_next e s m hr hm]

/-- A word is accepted exactly if `cmd_valid` and `cmd_ready` are 1; `cmd_ready` is low in reset (R33). -/
theorem cmdAccepted_iff (e : Edge) (s : State) :
    cmdAccepted e s = true ↔ e.inp.cmdValid = true ∧ (portOut e s).cmdReady = true := by
  rw [portOut_cmdReady, cmdAccepted, Bool.and_eq_true, Bool.and_eq_true]
  refine ⟨fun ⟨⟨_, hv⟩, hrdy⟩ => ⟨hv, hrdy⟩, fun ⟨hv, hrdy⟩ => ⟨⟨?_, hv⟩, hrdy⟩⟩
  rw [((cmdReady_iff e s).1 hrdy).1, Bool.not_false]

/-- The words an edge accepts, as the ports show them (R33). -/
theorem newWords_eq (e : Edge) (s : State) :
    newWords e s = if e.inp.cmdValid = true ∧ (portOut e s).cmdReady = true then [e.inp.word] else [] := by
  rw [newWords, if_congr (cmdAccepted_iff e s) rfl rfl]

/-- What stays on offer after the accept phase is a word presented and not accepted (R33). -/
theorem acceptPhase_offered (e : Edge) (s : State) :
    (acceptPhase e s).offered =
      if e.inp.cmdValid = true ∧ (portOut e s).cmdReady = false then some e.inp.word else none := by
  have h := cmdAccepted_iff e s
  rw [acceptPhase_eq, PortIn.offer]
  cases ha : cmdAccepted e s with
  | true => simp [h.1 ha]
  | false =>
    have hn : ¬ (e.inp.cmdValid = true ∧ (portOut e s).cmdReady = true) := fun hp => by simp [h.2 hp] at ha
    cases hv : e.inp.cmdValid with
    | false => simp
    | true => simp [Bool.eq_false_iff.2 fun hrdy => hn ⟨hv, hrdy⟩]

/-- What an edge leaves of the accepted words, the word on offer, the fill and the edges: the execute and the deliver phase
leave these as the accept phase wrote them. -/
theorem worksOff_of_step {s t : State} {e : Edge} {es : List Edge} (he : s.edges = e :: es) (hr : e.inp.rst = false)
    (h : step s = .next t) : WorksOff (acceptPhase e { s with edges := es }) t := by
  obtain ⟨m, hm, rfl⟩ := eq_phases_of_step he hr h
  exact (worksOff_executePhase hm).trans (worksOff_deliverPhase e m)

/-- The accepted words grow by the word the edge accepts (R33). -/
theorem accepted_of_step {s t : State} {e : Edge} {es : List Edge} (he : s.edges = e :: es) (hr : e.inp.rst = false)
    (h : step s = .next t) : t.accepted = s.accepted ++ newWords e s := by
  rw [(worksOff_of_step he hr h).accepted, acceptPhase_eq]
  rfl

/-- Settles O42: `cmd_ready` by its definition, and an edge without reset accepts just the word that `cmdAccepted` admits. -/
theorem acceptanceRule : Obligations.AcceptanceRule := by
  unfold Obligations.AcceptanceRule
  refine fun s t e es he h => ⟨fun hrdy => ?_, fun hr hf hst => ?_, fun hr => ?_⟩
  · exact (cmdReady_iff e s).1 (portOut_cmdReady e s ▸ hrdy)
  · exact (portOut_cmdReady e s).trans ((cmdReady_iff e s).2 ⟨hr, hf, hst⟩)
  · rw [accepted_of_step he hr h, newWords_eq]
    rfl

/-- The host's offer is kept exactly if the hold rule is not broken (R33). -/
theorem offerKept_eq_false_iff (e : Edge) (s : State) :
    offerKept e s = false ↔ ∃ w, s.offered = some w ∧ e.inp.offer ≠ some w := by
  unfold offerKept
  cases s.offered <;> simp

theorem breaksHold_iff (e : Edge) (s : State) : BreaksHold e s ↔ e.inp.rst = false ∧ offerKept e s = false :=
  and_congr_right' (offerKept_eq_false_iff e s).symm

/-- The step at which the host breaks the hold rule is refused (U6). -/
theorem step_of_breaksHold {s : State} {e : Edge} {es : List Edge} (he : s.edges = e :: es) (hb : BreaksHold e s) :
    step s = .refused .hostChangedOffer := by
  obtain ⟨hr, hk⟩ := (breaksHold_iff e s).1 hb
  have hk' : offerKept e { s with edges := es } = false := hk
  simp [step, he, onEdge, hr, hk']

/-- Every other step has a next state (R33, R81). -/
theorem step_next_of_not_breaksHold (s : State) (h : ¬ ∃ e es, s.edges = e :: es ∧ BreaksHold e s) :
    ∃ t, step s = .next t := by
  obtain ⟨-, hs⟩ | ⟨e, es, -, -, hs⟩ | ⟨e, es, m, -, -, -, -, hs⟩ | ⟨e, es, he, hr, hk, -⟩ := step_cases s
  · exact ⟨_, hs⟩
  · exact ⟨_, hs⟩
  · exact ⟨_, hs⟩
  · exact absurd ⟨e, es, he, (breaksHold_iff e s).2 ⟨hr, hk⟩⟩ h

/-- Settles O44: a step at a broken hold is refused, every other has a next state, and no outcome is both. -/
theorem stepStopsOnlyOnBrokenHold : Obligations.StepStopsOnlyOnBrokenHold := by
  unfold Obligations.StepStopsOnlyOnBrokenHold
  refine fun s => ⟨⟨?_, step_next_of_not_breaksHold s⟩, fun h => ?_, fun ⟨e, es, he, hb⟩ => step_of_breaksHold he hb⟩
  · rintro ⟨t, ht⟩ ⟨e, es, he, hb⟩
    cases ht.symm.trans (step_of_breaksHold he hb)
  · by_contra hb
    obtain ⟨t, ht⟩ := step_next_of_not_breaksHold s hb
    cases ht.symm.trans h

/-- A word is its opcode and its argument, so another opcode or argument is another word (R36). -/
theorem word_eq_iff (p q : PortIn) : p.word = q.word ↔ p.cmdOp = q.cmdOp ∧ p.cmdArg = q.cmdArg := by
  refine ⟨fun h => ⟨?_, ?_⟩, fun ⟨hop, harg⟩ => by rw [PortIn.word, PortIn.word, hop, harg]⟩
  · simpa [PortIn.word] using congrArg opField h
  · simpa [PortIn.word] using congrArg argField h

theorem offer_eq_some_word_iff (p q : PortIn) :
    q.offer = some p.word ↔ q.cmdValid = true ∧ q.cmdOp = p.cmdOp ∧ q.cmdArg = p.cmdArg := by
  rw [← word_eq_iff, PortIn.offer]
  cases q.cmdValid <;> simp

/-- What an edge leaves on offer: a word presented and not accepted, at a reset edge too (R33). -/
theorem offered_of_step {s t : State} {e : Edge} {es : List Edge} (he : s.edges = e :: es) (h : step s = .next t) :
    t.offered = if e.inp.cmdValid = true ∧ (portOut e s).cmdReady = false then some e.inp.word else none := by
  cases hr : e.inp.rst with
  | true => simp [eq_applyReset_of_step he hr h, portOut_of_reset e s hr, PortIn.offer]
  | false =>
    rw [(worksOff_of_step he hr h).offered, acceptPhase_offered, portOut_cmdReady, portOut_cmdReady]
    rfl

theorem edges_of_step {s t : State} {e : Edge} {es : List Edge} (he : s.edges = e :: es) (h : step s = .next t) :
    t.edges = es := by
  cases hr : e.inp.rst with
  | true => rw [eq_applyReset_of_step he hr h, applyReset_edges]
  | false => rw [(worksOff_of_step he hr h).edges, acceptPhase_eq]

theorem fill_of_step {s t : State} {e : Edge} {es : List Edge} (he : s.edges = e :: es) (hr : e.inp.rst = false)
    (h : step s = .next t) : t.fill = s.fill - 1 := by
  rw [(worksOff_of_step he hr h).fill, acceptPhase_eq]

theorem step_of_no_edge (s : State) (h : s.edges = []) : step s = .next s := by
  simp [step, h]

/-- Settles O53: what the edge leaves by the lemma for each field, and a word on offer that the host does not hold breaks the
hold rule. -/
theorem edgeLeavesOfferAndEdges : Obligations.EdgeLeavesOfferAndEdges := by
  unfold Obligations.EdgeLeavesOfferAndEdges
  refine ⟨fun s t e es he h => ⟨edges_of_step he h, offered_of_step he h, fun hr => fill_of_step he hr h⟩,
    fun s t e f es he h hv hrdy hf hne => ?_, step_of_no_edge⟩
  have hoff : t.offered = some e.inp.word := by rw [offered_of_step he h, if_pos ⟨hv, hrdy⟩]
  exact step_of_breaksHold (edges_of_step he h)
    ⟨hf, e.inp.word, hoff, fun hw => hne ((offer_eq_some_word_iff e.inp f.inp).1 hw)⟩

/-- An edge without reset while the table fill runs accepts nothing (R99). -/
theorem newWords_of_fill_pos (e : Edge) (s : State) (hf : 0 < s.fill) : newWords e s = [] := by
  rw [newWords_eq, if_neg]
  rintro ⟨-, hrdy⟩
  exact hf.ne' ((cmdReady_iff e s).1 (portOut_cmdReady e s ▸ hrdy)).2.1

/-- A step without reset while the table fill runs accepts nothing, and takes at most one off the fill (R99). -/
theorem step_during_fill {s t : State} (hf : 0 < s.fill) (hr : ∀ e ∈ s.edges.head?, e.inp.rst = false)
    (h : step s = .next t) : t.accepted = s.accepted ∧ s.fill - 1 ≤ t.fill ∧ t.edges = s.edges.tail := by
  cases he : s.edges with
  | nil =>
    obtain rfl := Host.Outcome.next.inj ((step_of_no_edge s he).symm.trans h)
    exact ⟨rfl, Nat.sub_le _ _, he⟩
  | cons e es =>
    have hre : e.inp.rst = false := hr e (by rw [he]; rfl)
    refine ⟨?_, (fill_of_step he hre h).ge, edges_of_step he h⟩
    rw [accepted_of_step he hre h, newWords_of_fill_pos e s hf, List.append_nil]

/-- Settles O46: by induction on the steps, each of which leaves enough of the fill for those after it. -/
theorem nothingAcceptedDuringFill : Obligations.NothingAcceptedDuringFill := by
  unfold Obligations.NothingAcceptedDuringFill
  intro k
  induction k with
  | zero =>
    intro s t _ _ hrun
    obtain rfl := (reaches_zero s t).1 hrun
    exact ⟨rfl, Nat.le_refl _⟩
  | succ k ih =>
    intro s t hk hr hrun
    obtain ⟨u, hu, hrun⟩ := (reaches_succ s t k).1 hrun
    obtain ⟨hacc, hfill, hedges⟩ := step_during_fill (by omega)
      (fun e he => hr e (List.mem_of_mem_head? (by rwa [List.head?_take, if_neg k.succ_ne_zero]))) hu
    have hru : ∀ e ∈ u.edges.take k, e.inp.rst = false := fun e he => by
      rw [hedges, ← List.drop_one, List.take_drop] at he
      exact hr e (Nat.add_comm 1 k ▸ List.mem_of_mem_drop he)
    obtain ⟨hacc', hfill'⟩ := ih u t (by omega) hru hrun
    exact ⟨hacc'.trans hacc, by omega⟩

/-! ### The response port: what is shown and what is delivered (R34) -/

theorem acceptPhase_with_edges (e : Edge) (s : State) (es : List Edge) :
    acceptPhase e { s with edges := es } = { acceptPhase e s with edges := es } := by
  rw [acceptPhase_eq, acceptPhase_eq]
  rfl

/-- The phases do not look at the edges to come: they execute the same (log 1). -/
theorem executePhase_with_edges {e : Edge} {s m : State} (es : List Edge) (h : executePhase e s = .next m) :
    executePhase e { s with edges := es } = .next { m with edges := es } := by
  obtain ⟨rfl, hi⟩ | ⟨w, ws, hb, hq, rfl⟩ := executePhase_next_cases h
  · exact executePhase_of_idle e _ hi
  · exact executePhase_of_head e _ w ws hb hq

/-- The response on the port is the one that the edge's deliver phase sees (R32, R34). -/
theorem portOut_rsp {e : Edge} {s m : State} {es : List Edge} (hr : e.inp.rst = false)
    (hm : executePhase e (acceptPhase e { s with edges := es }) = .next m) : (portOut e s).rsp = shownResponse e m := by
  obtain ⟨m', hm'⟩ := executePhase_next e (acceptPhase e s)
  have hes := executePhase_with_edges es hm'
  rw [← acceptPhase_with_edges, hm] at hes
  rw [portOut_of_next e s m' hr hm', Host.Outcome.next.inj hes]
  rfl

/-- The delivered responses grow by the shown one if the host takes it (R34). -/
theorem deliverPhase_delivered (e : Edge) (s : State) :
    (deliverPhase e s).delivered = s.delivered ++ if e.inp.rspReady then (shownResponse e s).toList else [] := by
  obtain ⟨hn, hd⟩ | ⟨r, rs, -, hs, hr, hd⟩ | ⟨r, rs, -, hs, hr, hd⟩ := deliverPhase_cases e s <;> rw [hd]
  · simp [hn]
  · simp [hs, hr]
  · simp [hr]

/-- A response on show is shown at the next edge without reset, whatever the core delays there (R34). -/
theorem portOut_rsp_of_shown (f : Edge) (s : State) (r : Response) (hr : f.inp.rst = false) (hs : s.rspShown = true)
    (hq : s.rspQueue.head? = some r) : (portOut f s).rsp = some r := by
  obtain ⟨m, hm⟩ := executePhase_next f (acceptPhase f s)
  obtain ⟨x, hx⟩ := rspQueue_append_of_execute f s m hm
  obtain ⟨hshown, -⟩ := executePhase_frame f _ m hm
  rw [acceptPhase_eq, hs] at hshown
  rw [portOut_of_next f s m hr hm]
  change shownResponse f m = some r
  rw [shownResponse_eq, hshown, hx, List.head?_append, hq]
  rfl

/-- A shown response that is not taken stays at the head of its queue, on show (R34). -/
theorem shown_of_not_taken {e : Edge} {m : State} {r : Response} (h : shownResponse e m = some r)
    (hready : e.inp.rspReady = false) :
    (deliverPhase e m).rspShown = true ∧ (deliverPhase e m).rspQueue.head? = some r := by
  obtain ⟨hn, -⟩ | ⟨q, rs, -, -, hr, -⟩ | ⟨q, rs, hq, hs, -, hd⟩ := deliverPhase_cases e m
  · rw [hn] at h; cases h
  · rw [hready] at hr; cases hr
  · rw [hd]
    exact ⟨rfl, by rw [← Option.some.inj (hs.symm.trans h)]; exact congrArg List.head? hq⟩

/-- Settles O43: the deliver phase delivers just the response on the port, and one not taken stays on show. -/
theorem deliveryRule : Obligations.DeliveryRule := by
  unfold Obligations.DeliveryRule
  constructor
  · intro s t e es he h hr
    obtain ⟨m, hm, rfl⟩ := eq_phases_of_step he hr h
    obtain ⟨-, -, -, -, -, hdel⟩ := executePhase_frame e _ m hm
    rw [acceptPhase_eq] at hdel
    rw [deliverPhase_delivered, hdel, portOut_rsp hr hm]
    cases shownResponse e m <;> simp
  · intro s t e f es r he h hrsp hready hf
    cases hr : e.inp.rst with
    | true => rw [portOut_of_reset e s hr] at hrsp; cases hrsp
    | false =>
      obtain ⟨m, hm, rfl⟩ := eq_phases_of_step he hr h
      obtain ⟨hshown, hhead⟩ := shown_of_not_taken ((portOut_rsp hr hm).symm.trans hrsp) hready
      exact portOut_rsp_of_shown f _ r hf hshown hhead

/-! ### What changes `CRC` (R92) -/

/-- The only way an edge without reset changes `CRC` is the execution of the oldest word (R92). -/
theorem head_executed_of_crc_ne {s t : State} {e : Edge} {es : List Edge} (he : s.edges = e :: es)
    (hr : e.inp.rst = false) (h : step s = .next t) (hne : t.crc ≠ s.crc) :
    ∃ w, s.cmdQueue ++ newWords e s = w :: t.cmdQueue ∧ t.crc = (seqWord s.crc w).1 := by
  obtain ⟨m, hm, rfl⟩ := eq_phases_of_step he hr h
  obtain ⟨hcrc, hqueue, -⟩ := deliverPhase_frame e m
  rw [hcrc] at hne ⊢
  rw [hqueue]
  rw [acceptPhase_eq] at hm
  obtain ⟨rfl, -⟩ | ⟨w, ws, -, hq, rfl⟩ := executePhase_next_cases hm
  · exact absurd rfl hne
  · exact ⟨w, hq, rfl⟩

/-- Settles O45: with no edge listed nothing changes; a reset writes the seed; else the oldest word was executed. -/
theorem onlyCommandsChangeCrc : Obligations.OnlyCommandsChangeCrc := by
  unfold Obligations.OnlyCommandsChangeCrc
  intro s t h hne
  cases he : s.edges with
  | nil => exact absurd (congrArg State.crc (Host.Outcome.next.inj (h.symm.trans (step_of_no_edge s he)))) hne
  | cons e es =>
    refine ⟨e, es, rfl, ?_⟩
    cases hr : e.inp.rst with
    | true => exact .inl ⟨rfl, congrArg State.crc (eq_applyReset_of_step he hr h)⟩
    | false =>
      obtain ⟨w, hq, hcrc⟩ := head_executed_of_crc_ne he hr h hne
      exact .inr ⟨rfl, w, newWords_eq e s ▸ hq, hcrc⟩

/-! ### Reset, and runs from a state that meets the sequential reading (R35, R94 to R96, R101) -/

/-- Settles O36: in reset the ports show nothing, and the reset empties the two records. -/
theorem nothingMovesInReset : Obligations.NothingMovesInReset := by
  unfold Obligations.NothingMovesInReset
  refine fun s t e es he hr => ⟨portOut_of_reset e s hr, fun h => ?_⟩
  rw [eq_applyReset_of_step he hr h]
  exact ⟨applyReset_accepted _ _, applyReset_delivered _ _⟩

/-- Settles O49: every step keeps the sequential reading, in which what is not yet delivered comes behind what is. -/
theorem deliveredMatchByOrder : Obligations.DeliveredMatchByOrder := by
  unfold Obligations.DeliveredMatchByOrder
  intro s t k hs hrun
  have ht : t.SeqInv := reaches_induction State.SeqInv stepKeepsSequentialReading k s t hs hrun
  exact ⟨t.rspQueue ++ seqRsps t.crc t.cmdQueue, (List.append_assoc _ _ _).symm.trans ht.2⟩

/-- Settles O37: the reset writes a state that meets the three invariants, and the runs from it are in order. -/
theorem resetRestoresInvariant : Obligations.ResetRestoresInvariant := by
  unfold Obligations.ResetRestoresInvariant
  intro s t e es he hr h
  obtain rfl := eq_applyReset_of_step he hr h
  exact ⟨seqInv_applyReset _ _, rfl, portInv_applyReset _ _, rfl,
    fun k u hrun => deliveredMatchByOrder _ u k (seqInv_applyReset _ _) hrun⟩

/-- With nothing in flight, `CRC` and the delivered responses are those of the accepted words (R35). -/
theorem State.SeqInv.of_nothing_in_flight {t : State} (ht : t.SeqInv) (hq : t.cmdQueue = []) (hr : t.rspQueue = []) :
    t.crc = seqCrc seed t.accepted ∧ t.delivered = seqRsps seed t.accepted := by
  obtain ⟨hcrc, hrsp⟩ := (seqInv_iff t).1 ht
  exact ⟨(finalCrc_of_idle t hq).symm.trans hcrc, (answers_of_idle t hq hr).symm.trans hrsp⟩

/-- Settles O50: both runs end with the values of the sequential run of their accepted words, which are the same. -/
theorem timingAffectsNoValue : Obligations.TimingAffectsNoValue := by
  unfold Obligations.TimingAffectsNoValue
  intro s s' t t' k k' hs hs' hrun hrun' hacc hq hq' hr hr'
  have ht : t.SeqInv := reaches_induction State.SeqInv stepKeepsSequentialReading k s t hs hrun
  have ht' : t'.SeqInv := reaches_induction State.SeqInv stepKeepsSequentialReading k' s' t' hs' hrun'
  obtain ⟨hcrc, hdel⟩ := ht.of_nothing_in_flight hq hr
  obtain ⟨hcrc', hdel'⟩ := ht'.of_nothing_in_flight hq' hr'
  rw [hcrc, hcrc', hdel, hdel', hacc]
  exact ⟨rfl, rfl⟩

end Sys2Proof.Machine

namespace Sys2Proof.Machine

/-! ### An edge that executes a word, and the edges that issue one (R33, R35, R41) -/

/-- At an edge without reset and not busy, where the host keeps its offer, the oldest queued word runs between the accept and
the deliver phase (R33, R34, R35). -/
theorem step_of_head {s : State} {e : Edge} {es : List Edge} {w : CmdWord} {ws : List CmdWord} (he : s.edges = e :: es)
    (hr : e.inp.rst = false) (hb : e.busy = false) (hk : offerKept e s = true)
    (hq : (acceptPhase e { s with edges := es }).cmdQueue = w :: ws) :
    step s = andThen (runWord w { acceptPhase e { s with edges := es } with cmdQueue := ws })
      fun m => .next (deliverPhase e m) := by
  have hk' : offerKept e { s with edges := es } = true := hk
  simp [step, he, onEdge, hr, hk', executePhase, hb, hq]

/-- Settles O33: the oldest word runs, a legal one by `exec`, an illegal one by `raiseIllegal`. -/
theorem stepRunsDecodedInstruction : Obligations.StepRunsDecodedInstruction := by
  unfold Obligations.StepRunsDecodedInstruction
  refine fun s e es w ws he hr hb hk hq => ⟨fun i hi => ?_, fun c hc => ?_⟩
  · rw [step_of_head he hr hb hk hq, runWord_of_legal w i _ hi]
  · rw [step_of_head he hr hb hk hq, runWord, hc, andThen_next]

@[simp] theorem word_issue (w : CmdWord) : (Edge.issue w).inp.word = w := cmdWord_fields w

@[simp] theorem offer_issue (w : CmdWord) : (Edge.issue w).inp.offer = some w := congrArg some (cmdWord_fields w)

theorem cmdAccepted_issue (w : CmdWord) (s : State) : cmdAccepted (Edge.issue w) s = decide (s.fill = 0) := by
  simp [cmdAccepted, cmdReady, Edge.issue, beq_eq_decide]

/-- Once the table is complete an issued word is accepted (R33, R99). -/
theorem acceptPhase_issue (w : CmdWord) (s : State) (hf : s.fill = 0) :
    acceptPhase (Edge.issue w) s =
      { s with cmdQueue := s.cmdQueue ++ [w], accepted := s.accepted ++ [w], offered := none } := by
  simp [acceptPhase, cmdAccepted_issue, hf]

/-- Until then it stays on offer (R33, R99). -/
theorem acceptPhase_issue_of_fill_pos (w : CmdWord) (s : State) (hf : s.fill ≠ 0) :
    acceptPhase (Edge.issue w) s = { s with offered := some w, fill := s.fill - 1 } := by
  simp [acceptPhase, cmdAccepted_issue, hf]

/-- An issued word runs at once where no word is queued or on offer and the table is complete (R33, R35). -/
theorem step_issue {s : State} {w : CmdWord} {es : List Edge} (he : s.edges = Edge.issue w :: es) (hq : s.cmdQueue = [])
    (hf : s.fill = 0) (ho : s.offered = none) :
    step s = andThen (runWord w { s with edges := es, accepted := s.accepted ++ [w] })
      fun m => .next (deliverPhase (Edge.issue w) m) := by
  have hacc := acceptPhase_issue w { s with edges := es } hf
  have hqueue : (acceptPhase (Edge.issue w) { s with edges := es }).cmdQueue = [w] := by
    rw [hacc, hq]
    rfl
  rw [step_of_head he rfl rfl (by rw [offerKept, ho]) hqueue, hacc, ← hq, ← ho]

theorem decodeTableWord_eq_some {n w : Nat} {i : Instr} (h : decodeTableWord n w = some i) :
    decode (BitVec.ofNat 36 w) = .legal i := by
  unfold decodeTableWord at h
  split at h
  · cases hd : decode (BitVec.ofNat 36 w) with
    | legal j => rw [hd] at h; exact congrArg Decoded.legal (Option.some.inj h)
    | illegal c => rw [hd] at h; cases h
  · cases h

/-- Settles O34: the placed word is issued with nothing queued before it, and runs as the command it decodes to. -/
theorem fetchedWordRunsNext : Obligations.FetchedWordRunsNext := by
  unfold Obligations.FetchedWordRunsNext
  intro s n w i hi
  have hstep : step (presentNext (BitVec.ofNat 36 w) s) = _ := step_issue rfl rfl rfl rfl
  rw [State.withFetchWord, hstep, runWord_of_legal _ i _ (decodeTableWord_eq_some hi)]
  rfl

/-- A quiet state after the words `ws` were issued and answered, with the edges `es` left (R106). -/
def State.afterIssued (s : State) (ws : List CmdWord) (es : List Edge) : State :=
  { s with
    crc := seqCrc s.crc ws
    edges := es
    accepted := s.accepted ++ ws
    delivered := s.delivered ++ seqRsps s.crc ws }

theorem afterIssued_nil (s : State) : s.afterIssued [] s.edges = s := by
  simp [State.afterIssued]

theorem afterIssued_afterIssued (s : State) (ws vs : List CmdWord) (es fs : List Edge) :
    (s.afterIssued ws fs).afterIssued vs es = s.afterIssued (ws ++ vs) es := by
  simp [State.afterIssued, seqCrc_append, seqRsps_append]

/-- Where the host takes it at once, the answer of a word is delivered at the word's own edge (R34, R35). -/
theorem step_issue_of_quiet {s : State} {w : CmdWord} {es : List Edge} (hs : s.Quiet) (he : s.edges = Edge.issue w :: es) :
    step s = .next (s.afterIssued [w] es) := by
  obtain ⟨hq, hr, hsh, hf, ho⟩ := hs
  rw [step_issue he hq hf ho, runWord_eq, andThen_next, deliverPhase_of_taken _ _ (seqWord s.crc w).2 ?_ rfl]
  · simp [State.afterIssued, hr, hsh]
  · rw [shownResponse_eq, hr]
    simp [Edge.issue]

/-- Settles O47: by induction on the words, each of which leaves a quiet state for those after it. -/
theorem runOfIssuedWords : Obligations.RunOfIssuedWords := by
  unfold Obligations.RunOfIssuedWords
  intro s ws es hs he
  change Reaches s ws.length (s.afterIssued ws es)
  induction ws generalizing s with
  | nil =>
    obtain rfl : s.edges = es := he
    exact (reaches_zero _ _).2 (afterIssued_nil s).symm
  | cons w ws ih =>
    refine (reaches_succ _ _ _).2 ⟨_, step_issue_of_quiet hs he, ?_⟩
    have hrest := ih (s.afterIssued [w] (ws.map Edge.issue ++ es)) hs rfl
    rwa [afterIssued_afterIssued] at hrest

/-- Settles O48: the run of the words of `CHECKSUM data`, whose last response answers for `data` alone. -/
theorem checksumDependsOnBytesOnly : Obligations.ChecksumDependsOnBytesOnly := by
  unfold Obligations.ChecksumDependsOnBytesOnly
  intro s data es hs he
  have hrun := runOfIssuedWords s _ es hs he
  have hlast : (seqRsps s.crc (wordsOf (checksumInstrs data))).getLast? = some ⟨false, checksum data⟩ :=
    getLast?_seqRsps_append_checksumInstrs s.crc [] data
  have hlen : (wordsOf (checksumInstrs data)).length = data.length + 2 := by simp [checksumInstrs]
  rw [hlen] at hrun
  refine ⟨_, hrun, seqCrc_checksumInstrs s.crc data, ?_, ?_⟩
  · rw [List.getLast?_append, hlast]
    rfl
  · rw [List.length_append, seqRsps_length, hlen, Nat.add_assoc]

/-! ### Reset edges and the frame of a command (R8, R95) -/

theorem fillLength_of_rom (h : Config.tableStorage = .rom) : fillLength = 0 := by
  rw [fillLength, h]

theorem le_fillLength_of_ram (h : Config.tableStorage = .ramBuiltInReset) : 256 ≤ fillLength := by
  rw [fillLength, h]
  exact Nat.le_add_right 256 _

/-- Settles O35: the reset writes what `INIT` and the delivery of its response leave of `CRC` and the queues. -/
theorem resetEdgeWrites : Obligations.ResetEdgeWrites := by
  unfold Obligations.ResetEdgeWrites
  refine fun s e es he hr => ⟨_, step_of_reset s e es he hr, rfl, rfl, rfl, fillLength_of_rom, le_fillLength_of_ram,
    fun q hq => ?_⟩
  have hq' : State.Quiet { q with edges := [Edge.issue (encode .init)] } := hq
  obtain ⟨hcmd, hrsp, hshown, -, -⟩ := hq
  exact ⟨_, step_issue_of_quiet hq' rfl, congrArg Prod.fst (seqWord_encode q.crc .init), hcmd, hrsp, hshown⟩

/-- Settles O8: the equation of `exec` writes `CRC` and one response; `crcAfter` of a command that does not write is `CRC`. -/
theorem commandFrame : Obligations.CommandFrame := by
  unfold Obligations.CommandFrame
  intro i s t h
  obtain rfl := Host.Outcome.next.inj ((exec_eq i s).symm.trans h)
  refine ⟨rfl, rfl, rfl, rfl, rfl, rfl, rfl, ⟨_, rfl, rfl⟩, ?_⟩
  cases i with
  | init | upd | setst => trivial
  | fin | getst | tblrd => rfl

/-! ### Edges without delay deliver one response each (R33, R34, R101) -/

/-- The commands and responses in flight. -/
def State.inFlight (s : State) : Nat := s.cmdQueue.length + s.rspQueue.length

/-- An edge without reset at which the core delays nothing and the host takes a response. -/
structure Edge.Prompt (e : Edge) : Prop where
  rst : e.inp.rst = false
  busy : e.busy = false
  hold : e.hold = false
  rspReady : e.inp.rspReady = true

theorem prompt_drain : Edge.drain.Prompt := ⟨rfl, rfl, rfl, rfl⟩

theorem prompt_issue (w : CmdWord) : (Edge.issue w).Prompt := ⟨rfl, rfl, rfl, rfl⟩

/-- Execution turns a queued word into a waiting response; behind it a response waits if anything is in flight. -/
theorem inFlight_executePhase {e : Edge} {s m : State} (hb : e.busy = false) (h : executePhase e s = .next m) :
    m.inFlight = s.inFlight ∧ (m.rspQueue = [] → m.inFlight = 0) := by
  obtain ⟨rfl, hi⟩ | ⟨w, ws, -, hq, rfl⟩ := executePhase_next_cases h
  · have hq : m.cmdQueue = [] := hi.resolve_left (by simp [hb])
    exact ⟨rfl, fun hr => by rw [State.inFlight, hq, hr]; rfl⟩
  · refine ⟨?_, fun hr => by simp at hr⟩
    simp only [State.inFlight, hq, List.length_append, List.length_cons, List.length_nil]
    omega

/-- A prompt edge delivers the oldest waiting response. -/
theorem inFlight_deliverPhase {e : Edge} {m : State} (hp : e.Prompt) (hm : m.rspQueue = [] → m.inFlight = 0) :
    (deliverPhase e m).inFlight = m.inFlight - 1 := by
  obtain ⟨hn, hd⟩ | ⟨r, rs, hq, -, -, hd⟩ | ⟨_, _, -, -, hr, -⟩ := deliverPhase_cases e m
  · rw [shownResponse_eq, hp.hold, Bool.not_false, Bool.or_true, if_pos rfl] at hn
    rw [hd, hm (List.head?_eq_none_iff.1 hn)]
  · rw [hd, State.inFlight, State.inFlight, hq, List.length_cons]
    rfl
  · rw [hp.rspReady] at hr; cases hr

/-- A prompt edge at which the host keeps its offer works off what is in flight after the accept phase, one response. -/
theorem step_of_prompt {s : State} {e : Edge} {es : List Edge} (he : s.edges = e :: es) (hp : e.Prompt)
    (hk : offerKept e s = true) :
    ∃ t, step s = .next t ∧ WorksOff (acceptPhase e { s with edges := es }) t ∧
      t.inFlight = (acceptPhase e { s with edges := es }).inFlight - 1 := by
  obtain ⟨m, hm⟩ := executePhase_next e (acceptPhase e { s with edges := es })
  obtain ⟨hin, hempty⟩ := inFlight_executePhase hp.busy hm
  have hstep := step_of_phases s m e es he hp.rst hk hm
  exact ⟨_, hstep, worksOff_of_step he hp.rst hstep, hin ▸ inFlight_deliverPhase hp hempty⟩

/-- With nothing left in flight, `CRC` and the delivered responses are what was due (R35). -/
theorem eq_due_of_inFlight_zero {t : State} (h : t.inFlight = 0) :
    t.cmdQueue = [] ∧ t.rspQueue = [] ∧ t.crc = t.finalCrc ∧ t.delivered = t.answers := by
  obtain ⟨hq, hr⟩ := Nat.add_eq_zero_iff.1 h
  rw [List.length_eq_zero_iff] at hq hr
  exact ⟨hq, hr, (finalCrc_of_idle t hq).symm, (answers_of_idle t hq hr).symm⟩

/-- As many draining edges as commands and responses are in flight leave none, and what was due is as it was (R101). -/
theorem reaches_drain (s : State) (k : Nat) (es : List Edge) (ho : s.offered = none) (hk : s.inFlight ≤ k)
    (he : s.edges = List.replicate k Edge.drain ++ es) :
    ∃ t, Reaches s k t ∧ t.inFlight = 0 ∧ t.finalCrc = s.finalCrc ∧ t.answers = s.answers ∧ t.accepted = s.accepted := by
  induction k generalizing s with
  | zero => exact ⟨s, (reaches_zero s s).2 rfl, Nat.le_zero.1 hk, rfl, rfl, rfl⟩
  | succ k ih =>
    obtain ⟨u, hu, hw, hin⟩ := step_of_prompt he prompt_drain (by rw [offerKept, ho])
    have hle : u.inFlight ≤ k := hin.trans_le (Nat.sub_le_of_le_add hk)
    obtain ⟨t, hrun, hzero, hcrc, hans, hacc⟩ := ih u hw.offered hle hw.edges
    exact ⟨t, (reaches_succ s t k).2 ⟨u, hu, hrun⟩, hzero, hcrc.trans hw.finalCrc, hans.trans hw.answers,
      hacc.trans hw.accepted⟩

theorem offerKept_issue {s : State} {w : CmdWord} (ho : s.offered = some w) : offerKept (Edge.issue w) s = true := by
  rw [offerKept, ho, offer_issue]
  exact beq_self_eq_true _

/-- While the table fill runs, a word on offer stays there, and what is in flight is worked off (R33, R99). -/
theorem step_issue_of_fill_pos {s : State} {w : CmdWord} {es : List Edge} (he : s.edges = Edge.issue w :: es)
    (ho : s.offered = some w) (hf : s.fill ≠ 0) :
    ∃ u, step s = .next u ∧ WorksOff { s with fill := s.fill - 1, edges := es } u ∧ u.inFlight ≤ s.inFlight := by
  obtain ⟨u, hu, hw, hin⟩ := step_of_prompt he (prompt_issue w) (offerKept_issue ho)
  rw [acceptPhase_issue_of_fill_pos w { s with edges := es } hf] at hw hin
  exact ⟨u, hu, ho ▸ hw, hin.trans_le (Nat.sub_le _ 1)⟩

/-- Once the table is complete, the word on offer is accepted, and a response is delivered at that edge (R33, R34). -/
theorem step_issue_of_fill_zero {s : State} {w : CmdWord} {es : List Edge} (he : s.edges = Edge.issue w :: es)
    (ho : s.offered = some w) (hf : s.fill = 0) :
    ∃ u, step s = .next u ∧ u.inFlight ≤ s.inFlight ∧
      WorksOff { s with
        cmdQueue := s.cmdQueue ++ [w], accepted := s.accepted ++ [w], offered := none, edges := es } u := by
  obtain ⟨u, hu, hw, hin⟩ := step_of_prompt he (prompt_issue w) (offerKept_issue ho)
  rw [acceptPhase_issue w { s with edges := es } hf] at hw hin
  refine ⟨u, hu, ?_, hw⟩
  simp only [State.inFlight, List.length_append, List.length_singleton] at hin ⊢
  omega

/-- A word that the host holds until the table is complete is accepted then, and no more is in flight after it than was
before: each edge delivers a response if one is due (R33, R99). -/
theorem reaches_accepted (n : Nat) (s : State) (w : CmdWord) (es : List Edge) (hn : s.fill = n) (ho : s.offered = some w)
    (he : s.edges = List.replicate (n + 1) (Edge.issue w) ++ es) :
    ∃ t, Reaches s (n + 1) t ∧ t.offered = none ∧ t.edges = es ∧ t.inFlight ≤ s.inFlight ∧
      t.finalCrc = seqCrc s.finalCrc [w] ∧ t.answers = s.answers ++ seqRsps s.finalCrc [w] ∧
      t.accepted = s.accepted ++ [w] := by
  induction n generalizing s with
  | zero =>
    obtain ⟨t, ht, hin, hw⟩ := step_issue_of_fill_zero he ho hn
    refine ⟨t, (reaches_succ s t 0).2 ⟨t, ht, (reaches_zero t t).2 rfl⟩, hw.offered, hw.edges, hin, ?_, ?_, hw.accepted⟩
    · exact hw.finalCrc.trans (seqCrc_append s.crc s.cmdQueue [w])
    · rw [hw.answers, State.answers, State.answers, seqRsps_append, ← List.append_assoc]
      rfl
  | succ n ih =>
    obtain ⟨u, hu, hw, hin⟩ := step_issue_of_fill_pos he ho (hn.trans_ne n.succ_ne_zero)
    obtain ⟨t, hrun, hto, hte, htin, hcrc, hans, hacc⟩ :=
      ih u (hw.fill.trans (congrArg (· - 1) hn)) (hw.offered.trans ho) hw.edges
    refine ⟨t, (reaches_succ s t (n + 1)).2 ⟨u, hu, hrun⟩, hto, hte, htin.trans hin, ?_, ?_, hacc.trans ?_⟩
    · rw [hcrc, hw.finalCrc]
      rfl
    · rw [hans, hw.finalCrc, hw.answers]
      rfl
    · rw [hw.accepted]

/-- Two runs, one after the other, are one run. -/
theorem reaches_add {s u t : State} {m n : Nat} (hm : Reaches s m u) (hn : Reaches u n t) : Reaches s (m + n) t := by
  induction m generalizing s with
  | zero =>
    obtain rfl := (reaches_zero s u).1 hm
    rwa [Nat.zero_add]
  | succ m ih =>
    obtain ⟨v, hv, hrun⟩ := (reaches_succ s u m).1 hm
    rw [Nat.succ_add]
    exact (reaches_succ s t (m + n)).2 ⟨v, hv, ih hrun⟩

/-- Settles O51: draining edges deliver all that is due; a word on offer is accepted first, and is then due as well. -/
theorem everyCommandIsAnswered : Obligations.EveryCommandIsAnswered := by
  unfold Obligations.EveryCommandIsAnswered
  refine ⟨fun s k es ho hk he => ?_, fun s w k es ho hk he => ?_⟩
  · obtain ⟨t, hrun, hzero, hcrc, hans, hacc⟩ := reaches_drain s k es ho hk he
    obtain ⟨hq, hr, hcrc', hdel⟩ := eq_due_of_inFlight_zero hzero
    exact ⟨t, hrun, hq, hr, hcrc'.trans hcrc, hdel.trans hans, hacc⟩
  · rw [List.append_assoc] at he
    obtain ⟨u, hacc, huo, hue, hin, hucrc, huans, huacc⟩ := reaches_accepted s.fill s w _ rfl ho he
    obtain ⟨t, hrun, hzero, hcrc, hans, htacc⟩ := reaches_drain u k es huo (hin.trans hk) hue
    obtain ⟨hq, hr, hcrc', hdel⟩ := eq_due_of_inFlight_zero hzero
    refine ⟨t, reaches_add hacc hrun, hq, hr, ?_, ?_, htacc.trans huacc⟩
    · rw [hcrc', hcrc, hucrc, State.finalCrc, ← seqCrc_append]
    · rw [hdel, hans, huans, State.answers, State.finalCrc, List.append_assoc, ← seqRsps_append]

end Sys2Proof.Machine

namespace Sys2Proof

/-! ### Words as numbers, and how many words have each cause (R36, R45, R83) -/

/-- An append as a number: the upper part moves up by the width of the lower. -/
theorem toNat_append_eq_add {m n : Nat} (x : BitVec m) (y : BitVec n) : (x ++ y).toNat = x.toNat * 2 ^ n + y.toNat := by
  rw [BitVec.toNat_append, ← Nat.shiftLeft_add_eq_or_of_lt y.isLt, Nat.shiftLeft_eq]

/-- `{op, arg}` as a number (R36). -/
theorem toNat_cmdWord (op : BitVec 4) (arg : Word) : (cmdWord op arg).toNat = op.toNat * 2 ^ 32 + arg.toNat :=
  toNat_append_eq_add op arg

/-- A format B operand is its byte as a number (R39). -/
theorem toNat_argOfByte (b : Byte) : (argOfByte b).toNat = b.toNat := by
  rw [argOfByte, toNat_append_eq_add]
  exact Nat.zero_add _

/-- Settles O17: the number of a word is its opcode at bit 32 and its argument below. -/
theorem assembledWordNumbers : Obligations.AssembledWordNumbers := by
  unfold Obligations.AssembledWordNumbers
  refine ⟨rfl, fun b => ?_, rfl, rfl, fun v => ?_, fun i => ?_⟩
  · rw [encode, toNat_cmdWord, toNat_argOfByte]
    rfl
  · rw [encode, toNat_cmdWord]
    rfl
  · rw [encode, toNat_cmdWord, toNat_argOfByte]
    rfl

/-- Settles O18: the decoder is evaluated on each word. -/
theorem writtenWordsDecode : Obligations.WrittenWordsDecode := by
  unfold Obligations.WrittenWordsDecode
  decide

/-- A word is its opcode and its argument (R36). -/
def fieldsEquiv : CmdWord ≃ BitVec 4 × Word where
  toFun w := (opField w, argField w)
  invFun p := cmdWord p.1 p.2
  left_inv := cmdWord_fields
  right_inv p := by simp

/-- Ten values of `op` are no opcode (R42). -/
theorem natCard_reservedOp : Nat.card { op : BitVec 4 // ReservedOp op } = 10 :=
  calc Nat.card { op : BitVec 4 // ReservedOp op }
      = Nat.card { k : Fin 16 // k = 0 ∨ 7 ≤ k.val } :=
        Nat.card_congr (BitVec.equivFin.toEquiv.subtypeEquiv fun op => by unfold ReservedOp; revert op; decide)
    _ = 10 := Nat.card_eq_fintype_card

/-- Cause 1 is a reserved opcode beside any argument (R42, R83). -/
theorem natCard_reservedOpcode : Nat.card { w : CmdWord // decode w = .illegal .reservedOpcode } = 10 * 2 ^ 32 :=
  calc Nat.card { w : CmdWord // decode w = .illegal .reservedOpcode }
      = Nat.card { p : BitVec 4 × Word // ReservedOp p.1 } :=
        Nat.card_congr (fieldsEquiv.subtypeEquiv decode_eq_reservedOpcode_iff)
    _ = Nat.card ({ op : BitVec 4 // ReservedOp op } × Word) := Nat.card_congr Equiv.prodSubtypeFstEquivSubtypeProd
    _ = 10 * 2 ^ 32 := by rw [Nat.card_prod, natCard_reservedOp, natCard_bitVec]

/-- A word is legal or illegal with one of the two causes: the three counts make up all words (R41). -/
theorem natCard_words_by_outcome :
    Nat.card CmdWord = Nat.card { w : CmdWord // ∃ i, decode w = .legal i } +
      (Nat.card { w : CmdWord // decode w = .illegal .reservedOpcode } +
        Nat.card { w : CmdWord // decode w = .illegal .reservedOperandBits }) := by
  classical
  have hcauses : ∀ w : CmdWord, (¬ ∃ i, decode w = .legal i) ↔
      decode w = .illegal .reservedOpcode ∨ decode w = .illegal .reservedOperandBits := fun w => by
    cases hd : decode w with
    | legal i => simp
    | illegal c => cases c <;> simp
  have hdisj : Disjoint (fun w => decode w = .illegal .reservedOpcode)
      (fun w => decode w = .illegal .reservedOperandBits) :=
    Pi.disjoint_iff.2 fun w => Prop.disjoint_iff.2 fun ⟨hop, hbits⟩ => nomatch hop.symm.trans hbits
  rw [← Nat.card_congr (Equiv.sumCompl fun w : CmdWord => ∃ i, decode w = .legal i), Nat.card_sum,
    Nat.card_congr (Equiv.subtypeEquivRight hcauses), Nat.card_congr (subtypeOrEquiv _ _ hdisj), Nat.card_sum]

/-- Settles O12: cause 1 by the ten reserved opcodes; cause 2 is what is left of all words beside the legal ones. -/
theorem illegalWordCounts : Obligations.IllegalWordCounts := by
  unfold Obligations.IllegalWordCounts
  refine ⟨natCard_reservedOpcode, ?_⟩
  have h := natCard_words_by_outcome
  rw [natCard_legal_words, natCard_instr, natCard_reservedOpcode, natCard_bitVec] at h
  omega

end Sys2Proof

namespace Sys2Proof.Machine

/-! ### `UPDATE` in the sequential reading, with other words between (R73) -/

/-- The `k`-th response of `UPDATE data` is the state after `k` bytes (R73). -/
theorem seqRsps_updateInstrs_getElem? (s : Word) (data : List Byte) (k : Nat) (hk : k < data.length) :
    (seqRsps s (wordsOf (updateInstrs data)))[k]? = some ⟨false, update s (data.take (k + 1))⟩ := by
  induction data generalizing s k with
  | nil => exact absurd hk (Nat.not_lt_zero k)
  | cons b data ih =>
    have hcons : seqRsps s (wordsOf (updateInstrs (b :: data))) =
        ⟨false, crcStep s b⟩ :: seqRsps (crcStep s b) (wordsOf (updateInstrs data)) := by
      change seqRsps s (encode (.upd b) :: wordsOf (updateInstrs data)) = _
      rw [seqRsps_cons, seqWord_encode]
      rfl
    rw [hcons]
    cases k with
    | zero => rfl
    | succ k => exact ih (crcStep s b) k (Nat.lt_of_succ_lt_succ hk)

/-- The byte of an `UPD` word. -/
def updByte? (w : CmdWord) : Option Byte :=
  match decode w with
  | .legal (.upd b) => some b
  | _ => none

/-- A word that is neither `INIT` nor `SETST` steps `CRC` if it is an `UPD`, and else leaves it (R11). -/
theorem seqWord_crc_eq_update (s : Word) (w : CmdWord)
    (h : decode w ≠ .legal .init ∧ ∀ v, decode w ≠ .legal (.setst v)) :
    (seqWord s w).1 = update s (updByte? w).toList := by
  obtain ⟨hinit, hsetst⟩ := h
  unfold updByte?
  cases hd : decode w with
  | illegal c => rw [seqWord_of_illegal s w c hd]; rfl
  | legal i =>
    rw [seqWord_of_legal s w i hd]
    cases i with
    | init => exact absurd hd hinit
    | setst v => exact absurd hd (hsetst v)
    | upd | fin | getst | tblrd => rfl

/-- Words that are neither `INIT` nor `SETST` leave the `CRC` of their `UPD` bytes alone (R73). -/
theorem seqCrc_eq_update_filterMap (s : Word) (ws : List CmdWord)
    (h : ∀ w ∈ ws, decode w ≠ .legal .init ∧ ∀ v, decode w ≠ .legal (.setst v)) :
    seqCrc s ws = update s (ws.filterMap updByte?) := by
  induction ws generalizing s with
  | nil => rfl
  | cons w ws ih =>
    obtain ⟨hw, hws⟩ := List.forall_mem_cons.1 h
    rw [seqCrc_cons, ih _ hws, seqWord_crc_eq_update s w hw, ← update_append, List.filterMap_cons]
    cases updByte? w <;> rfl

/-- Settles O27: the words of `UPDATE` by induction on the data, with other words between by induction on the words. -/
theorem updatePseudoCommand : Obligations.UpdatePseudoCommand := by
  unfold Obligations.UpdatePseudoCommand
  exact ⟨seqCrc_updateInstrs, seqRsps_updateInstrs_getElem?, seqCrc_eq_update_filterMap⟩

/-! ### The rendering `%08X` (R79) -/

/-- A digit that is written reads as the value it was written for (R79). -/
theorem hexVal_hexDigit (n : BitVec 4) : hexVal (hexDigit n) = some n.toNat := by
  revert n
  decide

/-- The number that `v` becomes with the digits `ns` written behind it. -/
def hexNumber (v : Nat) (ns : List (BitVec 4)) : Nat := ns.foldl (fun v n => 16 * v + n.toNat) v

/-- Written digits read as the number they are the digits of, most significant first (R45, R79). -/
theorem moreHex_map_hexDigit (v : Nat) (ns : List (BitVec 4)) :
    moreHex ns.length v (ns.map hexDigit) = (hexNumber v ns, []) := by
  induction ns generalizing v with
  | nil => rfl
  | cons n ns ih => rw [List.length_cons, List.map_cons, moreHex, hexVal_hexDigit]; exact ih _

/-- The hexadecimal digits of a value, most significant first (R79). -/
def nibbles (v : Word) : List (BitVec 4) := [28, 24, 20, 16, 12, 8, 4, 0].map fun k => v.extractLsb' k 4

theorem render08X_eq (v : Word) : render08X v = (nibbles v).map hexDigit := by
  rw [nibbles, List.map_map]
  rfl

/-- A digit behind the value above it gives the value from that digit on. -/
theorem shift_eq_of_digit (v : Word) (k : Nat) :
    16 * (v >>> (k + 4)).toNat + (v.extractLsb' k 4).toNat = (v >>> k).toNat := by
  rw [BitVec.extractLsb'_toNat, ← BitVec.toNat_ushiftRight, BitVec.shiftRight_add, BitVec.toNat_ushiftRight (v >>> k),
    Nat.shiftRight_eq_div_pow]
  exact Nat.div_add_mod _ _

/-- The digits make up the value, one digit at a time. -/
theorem hexNumber_nibbles (v : Word) : hexNumber 0 (nibbles v) = v.toNat :=
  calc hexNumber 0 (nibbles v)
      = hexNumber (v >>> 32).toNat (nibbles v) := by rw [BitVec.ushiftRight_eq_zero (Nat.le_refl 32)]; rfl
    _ = (v >>> 0).toNat := by
      simp only [hexNumber, nibbles, List.map_cons, List.map_nil, List.foldl_cons, List.foldl_nil, shift_eq_of_digit]
    _ = v.toNat := by rw [BitVec.ushiftRight_zero]

/-- A written number reads whole (R45, R79). -/
theorem readHex_map_hexDigit (n : BitVec 4) (ns : List (BitVec 4)) :
    readHex (n :: ns).length ((n :: ns).map hexDigit) =
      some (hexNumber 0 (n :: ns), []) := by
  rw [List.map_cons, readHex, hexVal_hexDigit, Option.map_some, List.length_cons, Nat.add_sub_cancel,
    moreHex_map_hexDigit, hexNumber, hexNumber, List.foldl_cons, Nat.mul_zero, Nat.zero_add]

/-- Settles O52: the rendering is the eight digits of the value, which read back as the number they make up. -/
theorem renderingReadsBack : Obligations.RenderingReadsBack := by
  unfold Obligations.RenderingReadsBack
  refine fun v => ⟨rfl, ?_⟩
  have hread : readNumber 8 32 ('0' :: 'x' :: render08X v) = some (v.toNat, []) :=
    calc readNumber 8 32 ('0' :: 'x' :: render08X v)
        = readHex (nibbles v).length ((nibbles v).map hexDigit) := by rw [← render08X_eq]; rfl
      _ = some (hexNumber 0 (nibbles v), []) := readHex_map_hexDigit _ _
      _ = some (v.toNat, []) := by rw [hexNumber_nibbles]
  rw [readWord, hread, Option.map_some, BitVec.ofNat_toNat, BitVec.setWidth_eq]

end Sys2Proof.Machine
